-- ==== Sys2Proof/Word.lean ====
section
/-! DEFINITION. The word types of the SIC core: bytes, 24-bit words, 15-bit address fields. -/

namespace Sys2Proof

/-- One memory cell, a value in `[0, 255]` (20_memory.md R20). -/
abbrev Byte := BitVec 8

/-- "A 24-bit (3-byte) unit of memory/register storage" (00_scope.md glossary; 10_state.md R5). -/
abbrev Word := BitVec 24

/-- The address field of an instruction word, bits 14..0 (30_encoding.md R37). -/
abbrev AddrField := BitVec 15

end Sys2Proof
end

