-- ==== Sys2Proof/Config.lean ====
section
/-! DEFINITION. The implementation parameters of this hardware (00_scope.md section 3). -/

namespace Sys2Proof

/-- `MEM_SIZE`, the bytes of memory: 32768 for this hardware (20_memory.md R19). -/
def Config.memSize : Nat := 32768

/-- `WORD_BYTES`: a word, and so an instruction, is 3 bytes (20_memory.md R23, 30_encoding.md R41). -/
def Config.wordBytes : Nat := 3

/-- What a byte that nothing has written reads as: memory is created "with all bytes zero" (20_memory.md R20). -/
def Config.unlistedByte : Byte := 0#8

/-- The OPEN parameter `SW_ENC`: the three values COMP writes to `SW` (92_eei_decisions.md D1; 41_arith_compare.md R61).
The machine takes it as an argument, so it stands in State as plain data that nothing writes (log 2). -/
structure SwEnc where
  swLt : Word
  swEq : Word
  swGt : Word
  deriving DecidableEq, Repr

/-- "pairwise distinct 24-bit values", the only constraint the spec puts on `SW_ENC` (D1). -/
def SwEnc.distinct (e : SwEnc) : Bool :=
  decide (e.swLt ≠ e.swEq) && decide (e.swLt ≠ e.swGt) && decide (e.swEq ≠ e.swGt)

/-- The reference value of `SW_ENC`, the ASCII codes of `<`, `=`, `>` (D1, 93_implementation_defined.md G4).
Only `State.reset` uses it (DESIGN CHOICE, log 2). -/
def Config.referenceSwEnc : SwEnc := ⟨0x3C#24, 0x3D#24, 0x3E#24⟩

end Sys2Proof
end

