-- ==== Sys2Proof/Syntax.lean ====
section
/-! DEFINITION. The instructions of the SIC core: one constructor per row of spec/opcode_table.json. -/

namespace Sys2Proof

/-- The one operand form: the indexing flag and the 15-bit base address (30_encoding.md R37, R42). -/
structure Operand where
  x       : Bool
  address : AddrField
  deriving DecidableEq, Repr

/-- The three fields every 24-bit word decodes to (30_encoding.md R37, R38). -/
structure Fields where
  opcode  : Byte
  operand : Operand
  deriving DecidableEq, Repr

/-- The 26 mnemonics of the opcode table (30_encoding.md R47) and the words whose opcode byte no mnemonic names
(43_table_only.md R85). -/
inductive Instr where
  | lda  (m : Operand)
  | sta  (m : Operand)
  | add  (m : Operand)
  | sub  (m : Operand)
  | comp (m : Operand)
  | jeq  (m : Operand)
  | j    (m : Operand)
  | and  (m : Operand)
  | div  (m : Operand)
  | jgt  (m : Operand)
  | jlt  (m : Operand)
  | jsub (m : Operand)
  | ldch (m : Operand)
  | ldl  (m : Operand)
  | ldx  (m : Operand)
  | mul  (m : Operand)
  | or   (m : Operand)
  | rd   (m : Operand)
  | rsub (m : Operand)
  | stch (m : Operand)
  | stl  (m : Operand)
  | stsw (m : Operand)
  | stx  (m : Operand)
  | td   (m : Operand)
  | tix  (m : Operand)
  | wd   (m : Operand)
  | unassigned (op : Byte) (m : Operand)
  deriving DecidableEq, Repr

end Sys2Proof
end

