-- ==== Sys2Proof/WellFormed.lean ====
section
/-! DEFINITION. Which terms of Instr stand for an instruction word: an `unassigned` opcode byte is none of the 26. -/

namespace Sys2Proof

/-- The 26 opcode bytes that 43_table_only.md R85 excepts from the unassigned ones, in its own order. -/
def assignedOpcodes : List Byte :=
  [0x00#8, 0x04#8, 0x08#8, 0x0C#8, 0x10#8, 0x14#8, 0x18#8, 0x1C#8, 0x20#8, 0x24#8, 0x28#8, 0x2C#8, 0x30#8] ++
  [0x34#8, 0x38#8, 0x3C#8, 0x40#8, 0x44#8, 0x48#8, 0x4C#8, 0x50#8, 0x54#8, 0xD8#8, 0xDC#8, 0xE0#8, 0xE8#8]

/-- Every field value of a mnemonic's instruction is admitted ("No bit of the word is reserved", 30_encoding.md R40);
`unassigned` carries one of the 230 bytes no mnemonic names (R85). -/
def Instr.wellFormed : Instr → Bool
  | .unassigned op _ => !assignedOpcodes.contains op
  | .lda _ | .sta _ | .add _ | .sub _ | .comp _ | .jeq _ | .j _ => true
  | .and _ | .div _ | .jgt _ | .jlt _ | .jsub _ | .ldch _ | .ldl _ | .ldx _ | .mul _ | .or _ => true
  | .rd _ | .rsub _ | .stch _ | .stl _ | .stsw _ | .stx _ | .td _ | .tix _ | .wd _ => true

end Sys2Proof
end

