-- ==== Sys2Proof/Decode.lean ====
section
/-! DEFINITION. The decoder, the encoder, the opcode table and the dispatch table's opcodes (30_encoding.md). -/

namespace Sys2Proof

/-! ### Words and bytes -/

/-- Three bytes as a word, most significant byte first: `M[a] * 2^16 + M[a+1] * 2^8 + M[a+2]` (20_memory.md R23). -/
def wordOfBytes (b0 b1 b2 : Byte) : Word :=
  BitVec.ofNat 24 (b0.toNat * 65536 + b1.toNat * 256 + b2.toNat)

/-- `w[23:16]`, the byte of a word that stands at its lowest address (20_memory.md R24). -/
def highByte (w : Word) : Byte := w.extractLsb' 16 8

/-- `w[15:8]` (R24). -/
def midByte (w : Word) : Byte := w.extractLsb' 8 8

/-- `w[7:0]` (R24). -/
def lowByte (w : Word) : Byte := w.extractLsb' 0 8

/-! ### Fields of a word -/

/-- `decode(w)` of 30_encoding.md R38: `opcode := w[23:16]`, `x := w[15]`, `address := w[14:0]`. -/
def fieldsOf (w : Word) : Fields where
  opcode  := w.extractLsb' 16 8
  operand := ⟨w.getLsbD 15, w.extractLsb' 0 15⟩

/-- The word of the three fields: `opcode << 16 | x << 15 | address` (30_encoding.md R50). -/
def wordOfFields (f : Fields) : Word :=
  BitVec.ofNat 24 (f.opcode.toNat * 65536 + (if f.operand.x then 32768 else 0) + f.operand.address.toNat)

/-! ### Decoding -/

/-- The instruction an opcode byte names with the decoded operand (30_encoding.md R47, 43_table_only.md R85). -/
def instrOf (f : Fields) : Instr :=
  match f.opcode with
  | 0x00#8 => .lda f.operand
  | 0x04#8 => .ldx f.operand
  | 0x08#8 => .ldl f.operand
  | 0x0C#8 => .sta f.operand
  | 0x10#8 => .stx f.operand
  | 0x14#8 => .stl f.operand
  | 0x18#8 => .add f.operand
  | 0x1C#8 => .sub f.operand
  | 0x20#8 => .mul f.operand
  | 0x24#8 => .div f.operand
  | 0x28#8 => .comp f.operand
  | 0x2C#8 => .tix f.operand
  | 0x30#8 => .jeq f.operand
  | 0x34#8 => .jgt f.operand
  | 0x38#8 => .jlt f.operand
  | 0x3C#8 => .j f.operand
  | 0x40#8 => .and f.operand
  | 0x44#8 => .or f.operand
  | 0x48#8 => .jsub f.operand
  | 0x4C#8 => .rsub f.operand
  | 0x50#8 => .ldch f.operand
  | 0x54#8 => .stch f.operand
  | 0xD8#8 => .rd f.operand
  | 0xDC#8 => .wd f.operand
  | 0xE0#8 => .td f.operand
  | 0xE8#8 => .stsw f.operand
  | op     => .unassigned op f.operand

/-- "Every 24-bit word decodes" (30_encoding.md R40). -/
def decodeWord (w : Word) : Instr := instrOf (fieldsOf w)

/-- Why the decoder rejects its input. -/
inductive DecodeError where
  /-- Fewer than the 3 bytes every instruction has (30_encoding.md R41); `n` of them. -/
  | truncated (n : Nat)
  /-- "a value outside `[0, 0xFFFFFF]`" given by the host (30_encoding.md R39, 60_exceptions.md R89). -/
  | invalidWord (v : Int)
  deriving DecidableEq, Repr

/-- The decoder over bytes in the order memory holds them: the first instruction and the bytes after it. -/
def decode : List Byte → Except DecodeError (Instr × List Byte)
  | b0 :: b1 :: b2 :: rest => .ok (decodeWord (wordOfBytes b0 b1 b2), rest)
  | bs                     => .error (.truncated bs.length)

/-- The decoder as the host calls it, on an integer: it "fails with `InvalidWord` if `word` is negative or exceeds
`0xFFFFFF`" (30_encoding.md R39) and otherwise answers the fields of R38. -/
def decodeInt (v : Int) : Except DecodeError Fields :=
  if 0 ≤ v ∧ v ≤ 0xFFFFFF then .ok (fieldsOf (BitVec.ofNat 24 v.toNat)) else .error (.invalidWord v)

/-! ### Encoding -/

/-- The opcode byte of an instruction (30_encoding.md R47). -/
def Instr.opcode : Instr → Byte
  | .lda _ => 0x00#8
  | .sta _ => 0x0C#8
  | .add _ => 0x18#8
  | .sub _ => 0x1C#8
  | .comp _ => 0x28#8
  | .jeq _ => 0x30#8
  | .j _ => 0x3C#8
  | .and _ => 0x40#8
  | .div _ => 0x24#8
  | .jgt _ => 0x34#8
  | .jlt _ => 0x38#8
  | .jsub _ => 0x48#8
  | .ldch _ => 0x50#8
  | .ldl _ => 0x08#8
  | .ldx _ => 0x04#8
  | .mul _ => 0x20#8
  | .or _ => 0x44#8
  | .rd _ => 0xD8#8
  | .rsub _ => 0x4C#8
  | .stch _ => 0x54#8
  | .stl _ => 0x14#8
  | .stsw _ => 0xE8#8
  | .stx _ => 0x10#8
  | .td _ => 0xE0#8
  | .tix _ => 0x2C#8
  | .wd _ => 0xDC#8
  | .unassigned op _ => op

/-- The operand field pair of an instruction; every instruction has it (30_encoding.md R42). -/
def Instr.operand : Instr → Operand
  | .lda m | .sta m | .add m | .sub m | .comp m | .jeq m | .j m => m
  | .and m | .div m | .jgt m | .jlt m | .jsub m | .ldch m | .ldl m | .ldx m | .mul m | .or m => m
  | .rd m | .rsub m | .stch m | .stl m | .stsw m | .stx m | .td m | .tix m | .wd m => m
  | .unassigned _ m => m

/-- The 24-bit word of an instruction (30_encoding.md R37, R50). -/
def encodeWord (i : Instr) : Word := wordOfFields ⟨i.opcode, i.operand⟩

/-- The three bytes of an instruction in the order memory holds them (20_memory.md R24, R26). -/
def encode (i : Instr) : List Byte :=
  [highByte (encodeWord i), midByte (encodeWord i), lowByte (encodeWord i)]

/-! ### The opcode table and the dispatch table -/

/-- The OpcodeTable: exactly 26 mnemonics and their opcodes (30_encoding.md R47). -/
def opcodeTable : List (String × Byte) :=
  [("ADD", 0x18#8), ("AND", 0x40#8), ("COMP", 0x28#8), ("DIV", 0x24#8), ("J", 0x3C#8), ("JEQ", 0x30#8)] ++
  [("JGT", 0x34#8), ("JLT", 0x38#8), ("JSUB", 0x48#8), ("LDA", 0x00#8), ("LDCH", 0x50#8), ("LDL", 0x08#8)] ++
  [("LDX", 0x04#8), ("MUL", 0x20#8), ("OR", 0x44#8), ("RD", 0xD8#8), ("RSUB", 0x4C#8), ("STA", 0x0C#8)] ++
  [("STCH", 0x54#8), ("STL", 0x14#8), ("STSW", 0xE8#8), ("STX", 0x10#8), ("SUB", 0x1C#8), ("TD", 0xE0#8)] ++
  [("TIX", 0x2C#8), ("WD", 0xDC#8)]

/-- Uppercasing: ASCII `a` to `z` become `A` to `Z`, every other character stays (30_encoding.md R48). -/
def upperChar (c : Char) : Char :=
  if 97 ≤ c.toNat ∧ c.toNat ≤ 122 then Char.ofNat (c.toNat - 32) else c

/-- A mnemonic's characters after uppercasing (R48). -/
def upperName (name : String) : List Char := name.toList.map upperChar

/-- `get_opcode` as a lookup: the opcode, or nothing for a name the table lacks (30_encoding.md R48). -/
def getOpcode (name : String) : Option Byte :=
  (opcodeTable.find? fun row => decide (row.1.toList = upperName name)).map (·.2)

/-- `is_mnemonic`: "uppercases and checks membership; never fails" (30_encoding.md R49). -/
def isMnemonic (name : String) : Bool :=
  opcodeTable.any fun row => decide (row.1.toList = upperName name)

/-- The word `MNEMONIC address` or `MNEMONIC address,X` assembles to (30_encoding.md R50). -/
def assembleWord (name : String) (m : Operand) : Option Word :=
  (getOpcode name).map fun op => wordOfFields ⟨op, m⟩

/-- The dispatch table's opcodes: "exactly seven opcode values" have a handler (30_encoding.md R45). -/
def handlerOpcodes : List Byte := [0x00#8, 0x0C#8, 0x18#8, 0x1C#8, 0x28#8, 0x30#8, 0x3C#8]

/-- Whether the dispatch table has a handler for an opcode byte (30_encoding.md R45, R46). -/
def hasHandler (op : Byte) : Bool := handlerOpcodes.contains op

/-! ### The decoder on the opcode table's numbering -/

/-- The instruction the decoder reads from a word numbered as spec/opcode_table.json numbers it: bit 0 is the least
significant bit of the 24-bit word, whose opcode is bits 23..16; the word is laid out big-endian and its bytes are given
to `decode` (log 8). -/
def decodeTableWord (nbits w : Nat) : Option Instr :=
  let v := w % 2 ^ nbits
  if v < 2 ^ 24 then
    let word : Word := BitVec.ofNat 24 v
    match decode [highByte word, midByte word, lowByte word] with
    | .ok (i, _) => some i
    | .error _   => none
  else none

end Sys2Proof
end

