-- ==== Sys2Proof/Machine/State.lean ====
section
/-! DEFINITION. The state of the SIC core, its faults, and the state after reset (10_state.md R18). -/

namespace Sys2Proof.Machine

/-- The closed set of registers: "No register outside this fixed named set exists" (10_state.md R5). -/
inductive RegName where
  | A | X | L | PC | SW
  deriving DecidableEq, Repr

/-- The two access widths, 1 byte and 3 bytes (20_memory.md R28). -/
inductive AccessWidth where
  | byte | word
  deriving DecidableEq, Repr

/-- What an access was, as an `OutOfBounds` fault records it (60_exceptions.md R87). -/
inductive AccessKind where
  | fetch | dataRead | dataWrite
  deriving DecidableEq, Repr

/-- The six error kinds of 60_exceptions.md R86 with the information each carries (R87 to R92). `step` answers one of
them only when it already stands in the fault record (the machine "takes no further step", R95): safe, since no claim
about a later state can rest on it. -/
inductive Fault where
  /-- Raised by a fetch, by LDA, ADD, SUB, COMP, STA and by the host's memory ports: the start address of the access as
  formed, its width and its kind (R87). Safe: the spec's own error. -/
  | outOfBounds (addr : Int) (width : AccessWidth) (kind : AccessKind)
  /-- Raised at dispatch for every opcode byte without a handler, after the PC advance (R88). Safe: the spec's own
  error. -/
  | unimplementedOpcode (op : Byte)
  /-- Raised by the host's call of the decoder with a value outside `[0, 0xFFFFFF]`; never by a step (R89). Safe. -/
  | invalidWord (v : Int)
  /-- Raised by the host's register ports for a name outside {A, X, L, PC, SW}; never by a step (R90). Safe. -/
  | unknownRegister (name : String)
  /-- Raised by the host's `get_opcode`; never by a step (R91). Safe. -/
  | unknownMnemonic (name : String)
  /-- The assembler's, outside this hardware: nothing in the model raises it; it is one of the six kinds of R86 and
  stands "for completeness of the boundary" (R92). Safe. -/
  | duplicateSymbol (label : String)
  deriving DecidableEq, Repr

/-- Why a step is refused. -/
inductive Refusal where
  /-- An instruction without a meaning yet. Every instruction of this model has one, so no step gives this. Safe. -/
  | notModelled (mnemonic : String)
  deriving DecidableEq, Repr

/-- Memory as the bytes that differ from `Config.unlistedByte`, addresses strictly rising (20_memory.md R19, R20). -/
abbrev Memory := List Host.Cell

/-- Every address of `m` is at least `lo` and below `MEM_SIZE`, addresses rise strictly, and no entry is what an
unlisted address reads as. -/
def Memory.canonicalFrom : Nat → Memory → Bool
  | _, [] => true
  | lo, (a, v) :: m =>
    decide (lo ≤ a) && decide (a < Config.memSize) && decide (v ≠ Config.unlistedByte) && Memory.canonicalFrom (a + 1) m

/-- The canonical form of a memory, so that equal memories are equal lists. -/
def Memory.wf (m : Memory) : Bool := Memory.canonicalFrom 0 m

/-- The complete state of one machine (10_state.md R18), and the parameter `SW_ENC` the spec leaves open (D1, log 2). -/
structure State where
  /-- "accumulator" (R5). -/
  a     : Word
  /-- "index" (R5). -/
  x     : Word
  /-- "linkage" (R5). -/
  l     : Word
  /-- "program counter" (R5, R11). -/
  pc    : Word
  /-- "status word" (R5, R14). -/
  sw    : Word
  /-- The 32768 bytes (20_memory.md R19). -/
  mem   : Memory
  /-- The fault record: "none, or one fault" (R18; 60_exceptions.md R95). -/
  fault : Option Fault
  /-- The model's own field: the machine's OPEN parameter `SW_ENC` (D1), which no step and no host call writes (log 2). -/
  swEnc : SwEnc
  deriving DecidableEq, Repr

/-- The machine when created with a given `SW_ENC`: every register and byte 0, the fault record empty
(70_reset_and_hazards.md R106). -/
def State.created (enc : SwEnc) : State where
  a := 0
  x := 0
  l := 0
  pc := 0
  sw := 0
  mem := []
  fault := none
  swEnc := enc

/-- The machine right after reset (R106, R107), with the reference `SW_ENC` (DESIGN CHOICE, log 2). -/
def State.reset : State := State.created Config.referenceSwEnc

/-- What an instruction and a step answer. -/
abbrev StepResult := Host.Outcome State Fault Refusal

end Sys2Proof.Machine
end

