-- ==== Sys2Proof/Machine/Ops.lean ====
section
/-! DEFINITION. The primitives of 00_scope.md R4: masks, registers, memory accesses, and raising a fault. -/

namespace Sys2Proof.Machine

/-! ### Masks (00_scope.md R4) -/

/-- `mask24(v) = v mod 2^24`, for a negative integer too (R4). -/
def mask24 (v : Int) : Word := BitVec.ofInt 24 v

/-- `mask8(v) = v mod 256` (R4). -/
def mask8 (v : Int) : Byte := BitVec.ofInt 8 v

/-! ### Registers -/

/-- `R[n]`: the value last stored (10_state.md R7). -/
def State.reg (s : State) : RegName → Word
  | .A  => s.a
  | .X  => s.x
  | .L  => s.l
  | .PC => s.pc
  | .SW => s.sw

/-- `R[n] <- v`: stores `mask24(v)`, never a fault (10_state.md R6). -/
def State.setReg (s : State) (n : RegName) (v : Int) : State :=
  match n with
  | .A  => { s with a := mask24 v }
  | .X  => { s with x := mask24 v }
  | .L  => { s with l := mask24 v }
  | .PC => { s with pc := mask24 v }
  | .SW => { s with sw := mask24 v }

/-! ### The memory list -/

/-- The byte at an address; an address not listed reads as `Config.unlistedByte` (20_memory.md R20). -/
def Memory.byteAt : Memory → Nat → Byte
  | [], _ => Config.unlistedByte
  | (b, v) :: m, a => if a = b then v else Memory.byteAt m a

/-- Take the entry of an address out. -/
def Memory.erase : Memory → Nat → Memory
  | [], _ => []
  | (b, v) :: m, a => if a = b then Memory.erase m a else (b, v) :: Memory.erase m a

/-- Put an entry before the first entry with a greater address. -/
def Memory.insert : Memory → Nat → Byte → Memory
  | [], a, v => [(a, v)]
  | (b, w) :: m, a, v => if a < b then (a, v) :: (b, w) :: m else (b, w) :: Memory.insert m a v

/-- Set one byte, keeping the canonical form: a byte equal to `Config.unlistedByte` is not listed. -/
def Memory.setByte (m : Memory) (a : Nat) (v : Byte) : Memory :=
  if v = Config.unlistedByte then m.erase a else (m.erase a).insert a v

/-- The big-endian word at an address (20_memory.md R23). -/
def Memory.wordAt (m : Memory) (a : Nat) : Word :=
  wordOfBytes (m.byteAt a) (m.byteAt (a + 1)) (m.byteAt (a + 2))

/-- `M[a] := w[23:16]`, `M[a+1] := w[15:8]`, `M[a+2] := w[7:0]` (20_memory.md R24). -/
def Memory.setWord (m : Memory) (a : Nat) (w : Word) : Memory :=
  ((m.setByte a (highByte w)).setByte (a + 1) (midByte w)).setByte (a + 2) (lowByte w)

/-! ### Bounds-checked accesses -/

/-- How many bytes an access of a width spans (20_memory.md R28). -/
def AccessWidth.bytes : AccessWidth → Nat
  | .byte => 1
  | .word => Config.wordBytes

/-- The whole span `[a, a + n - 1]` lies inside `[0, MEM_SIZE - 1]` (20_memory.md R21 to R25; 60_exceptions.md R87). -/
def inBounds (a : Int) (w : AccessWidth) : Bool := decide (0 ≤ a ∧ a ≤ (Config.memSize : Int) - w.bytes)

/-- `MemRead(a, 1)` (20_memory.md R21). -/
def memReadByte (k : AccessKind) (a : Int) (s : State) : Except Fault Byte :=
  if inBounds a .byte then .ok (s.mem.byteAt a.toNat) else .error (.outOfBounds a .byte k)

/-- `MemRead(a, 3)` (20_memory.md R23). -/
def memReadWord (k : AccessKind) (a : Int) (s : State) : Except Fault Word :=
  if inBounds a .word then .ok (s.mem.wordAt a.toNat) else .error (.outOfBounds a .word k)

/-- `MemWrite(a, 1, v)`: the bounds check, then `M[a] := mask8(v)` (20_memory.md R22). -/
def memWriteByte (a v : Int) (s : State) : Except Fault State :=
  if inBounds a .byte then .ok { s with mem := s.mem.setByte a.toNat (mask8 v) }
  else .error (.outOfBounds a .byte .dataWrite)

/-- `MemWrite(a, 3, v)`: the bounds check, then the three bytes of `mask24(v)` (20_memory.md R24, R25). -/
def memWriteWord (a v : Int) (s : State) : Except Fault State :=
  if inBounds a .word then .ok { s with mem := s.mem.setWord a.toNat (mask24 v) }
  else .error (.outOfBounds a .word .dataWrite)

/-! ### Raising a fault -/

/-- The numeric code of an error kind, "for a model's enumeration" (60_exceptions.md R86). -/
def Fault.code : Fault → Nat
  | .outOfBounds _ _ _     => 1
  | .unimplementedOpcode _ => 2
  | .invalidWord _         => 3
  | .unknownRegister _     => 4
  | .unknownMnemonic _     => 5
  | .duplicateSymbol _     => 6

/-- `raise E(info)`: "writes already made stay made", the fault is recorded, and nothing else changes: no register or
memory location is saved into and no control is transferred (00_scope.md R4; 60_exceptions.md R94, R95, R97). The
machine that results takes no further step (`stoppedBy`, log 1). There is no return from a fault (R98). -/
def raise (f : Fault) (s : State) : StepResult := .next { s with fault := some f }

/-- The dispatch of an opcode byte without a handler: "a hard stop, not a silent no-op" (30_encoding.md R54, R88). -/
def raiseUnimplemented (op : Byte) (s : State) : StepResult := raise (.unimplementedOpcode op) s

/-- The recorded fault that keeps the machine from stepping: "takes no further step" (60_exceptions.md R95). -/
def stoppedBy (s : State) : Option Fault := s.fault

/-! ### Fetch and advance -/

/-- Phase 1 of a step: the word at `PC`, or `OutOfBounds(PC)` (30_encoding.md R52). -/
def fetchWord (s : State) : Except Fault Word := memReadWord .fetch (s.reg .PC).toNat s

/-- Phase 2 of a step: `PC <- PC + 3`, unconditional (30_encoding.md R53). -/
def advancePc (s : State) : State := s.setReg .PC ((s.reg .PC).toNat + Config.wordBytes)

/-- `s` with a word stored where the next fetch reads, if that is inside memory. -/
def placeAtPc (w : Word) (s : State) : State :=
  if inBounds (s.reg .PC).toNat .word then { s with mem := s.mem.setWord (s.reg .PC).toNat w } else s

end Sys2Proof.Machine
end

