-- ==== Sys2Proof/Machine/Flags.lean ====
section
/-! DEFINITION. The condition code: what COMP writes to `SW` and what JEQ tests (10_state.md R14). -/

namespace Sys2Proof.Machine

/-- COMP's sentinel: an unsigned comparison of two 24-bit values (41_arith_compare.md R61, R62). -/
def compareSentinel (enc : SwEnc) (a m : Word) : Word :=
  if a.toNat < m.toNat then enc.swLt else if a.toNat = m.toNat then enc.swEq else enc.swGt

/-- JEQ's test: `SW`, "compared as a whole 24-bit value with `SW_EQ`" (42_jumps.md R64). -/
def swIsEqual (s : State) : Bool := decide (s.reg .SW = s.swEnc.swEq)

end Sys2Proof.Machine
end

