-- ==== Sys2Proof/Machine/Operands.lean ====
section
/-! DEFINITION. The effective address and the two operand accesses of the handlers (30_encoding.md R42 to R44). -/

namespace Sys2Proof.Machine

/-- `EA(ins) := ins.address + (X if ins.x = 1 else 0)`, "natural number, no mask" (30_encoding.md R43). -/
def effAddr (m : Operand) (s : State) : Nat :=
  m.address.toNat + (if m.x then (s.reg .X).toNat else 0)

/-- Read the word at the effective address and go on with it; a failing read raises its fault before anything is
written (30_encoding.md R55). -/
def withOperandWord (m : Operand) (s : State) (use : Word → State) : StepResult :=
  match memReadWord .dataRead (effAddr m s) s with
  | .ok w    => .next (use w)
  | .error f => raise f s

/-- Write a word at the effective address; a failing write raises its fault and no byte is written (20_memory.md R25). -/
def storeOperandWord (m : Operand) (v : Int) (s : State) : StepResult :=
  match memWriteWord (effAddr m s) v s with
  | .ok t    => .next t
  | .error f => raise f s

end Sys2Proof.Machine
end

