-- ==== Sys2Proof/Machine/ArithCompare.lean ====
section
/-! DEFINITION. ADD, SUB and COMP (41_arith_compare.md). -/

namespace Sys2Proof.Machine

/-- ADD: `A <- A + MemRead(EA, 3)`, stored modulo 2^24; no flag (R59). -/
def execAdd (m : Operand) (s : State) : StepResult :=
  withOperandWord m s fun w => s.setReg .A ((s.reg .A).toNat + w.toNat)

/-- SUB: `A <- A - MemRead(EA, 3)`, the integer difference stored modulo 2^24; no flag (R60). -/
def execSub (m : Operand) (s : State) : StepResult :=
  withOperandWord m s fun w => s.setReg .A ((s.reg .A).toNat - w.toNat)

/-- COMP: `SW` becomes the sentinel of the unsigned comparison of `A` with the word (R61). -/
def execComp (m : Operand) (s : State) : StepResult :=
  withOperandWord m s fun w => s.setReg .SW (compareSentinel s.swEnc (s.reg .A) w).toNat

end Sys2Proof.Machine
end

