-- ==== Sys2Proof/Machine/Jumps.lean ====
section
/-! DEFINITION. J and JEQ (42_jumps.md). PC already holds the advanced value; a taken jump overwrites it. -/

namespace Sys2Proof.Machine

/-- J: `PC <- EA`, stored as `mask24(EA)`; the target is not checked (R63, R65). -/
def execJ (m : Operand) (s : State) : StepResult :=
  .next (s.setReg .PC (effAddr m s))

/-- JEQ: `PC <- EA` only if `SW = SW_EQ`; otherwise PC keeps its advanced value (R64). -/
def execJeq (m : Operand) (s : State) : StepResult :=
  .next (if swIsEqual s then s.setReg .PC (effAddr m s) else s)

end Sys2Proof.Machine
end

