-- ==== Sys2Proof/Machine/LoadStore.lean ====
section
/-! DEFINITION. LDA and STA (40_load_store.md). Each runs as phase 4 of a step, on the state whose PC has advanced. -/

namespace Sys2Proof.Machine

/-- LDA: `A <- MemRead(EA, 3)` (R57). -/
def execLda (m : Operand) (s : State) : StepResult :=
  withOperandWord m s fun w => s.setReg .A w.toNat

/-- STA: `MemWrite(EA, 3, A)` (R58). -/
def execSta (m : Operand) (s : State) : StepResult :=
  storeOperandWord m (s.reg .A).toNat s

end Sys2Proof.Machine
end

