-- ==== Sys2Proof/Machine/TableOnly.lean ====
section
/-! DEFINITION. The table-only mnemonics and the unassigned opcode bytes (43_table_only.md): the operand is decoded and
unused, and `UnimplementedOpcode` is raised on the state whose PC has advanced. The standard SIC meaning is not this
hardware's ("a model must not execute it"). -/

namespace Sys2Proof.Machine

/-- AND: raises `UnimplementedOpcode(0x40)` (R66). -/
def execAnd (_m : Operand) (s : State) : StepResult := raiseUnimplemented 0x40#8 s

/-- DIV: raises `UnimplementedOpcode(0x24)` (R67). -/
def execDiv (_m : Operand) (s : State) : StepResult := raiseUnimplemented 0x24#8 s

/-- JGT: raises `UnimplementedOpcode(0x34)` (R68). -/
def execJgt (_m : Operand) (s : State) : StepResult := raiseUnimplemented 0x34#8 s

/-- JLT: raises `UnimplementedOpcode(0x38)` (R69). -/
def execJlt (_m : Operand) (s : State) : StepResult := raiseUnimplemented 0x38#8 s

/-- JSUB: raises `UnimplementedOpcode(0x48)` (R70). -/
def execJsub (_m : Operand) (s : State) : StepResult := raiseUnimplemented 0x48#8 s

/-- LDCH: raises `UnimplementedOpcode(0x50)` (R71). -/
def execLdch (_m : Operand) (s : State) : StepResult := raiseUnimplemented 0x50#8 s

/-- LDL: raises `UnimplementedOpcode(0x08)` (R72). -/
def execLdl (_m : Operand) (s : State) : StepResult := raiseUnimplemented 0x08#8 s

/-- LDX: raises `UnimplementedOpcode(0x04)` (R73). -/
def execLdx (_m : Operand) (s : State) : StepResult := raiseUnimplemented 0x04#8 s

/-- MUL: raises `UnimplementedOpcode(0x20)` (R74). -/
def execMul (_m : Operand) (s : State) : StepResult := raiseUnimplemented 0x20#8 s

/-- OR: raises `UnimplementedOpcode(0x44)` (R75). -/
def execOr (_m : Operand) (s : State) : StepResult := raiseUnimplemented 0x44#8 s

/-- RD: raises `UnimplementedOpcode(0xD8)` (R76). -/
def execRd (_m : Operand) (s : State) : StepResult := raiseUnimplemented 0xD8#8 s

/-- RSUB: raises `UnimplementedOpcode(0x4C)` (R77). -/
def execRsub (_m : Operand) (s : State) : StepResult := raiseUnimplemented 0x4C#8 s

/-- STCH: raises `UnimplementedOpcode(0x54)` (R78). -/
def execStch (_m : Operand) (s : State) : StepResult := raiseUnimplemented 0x54#8 s

/-- STL: raises `UnimplementedOpcode(0x14)` (R79). -/
def execStl (_m : Operand) (s : State) : StepResult := raiseUnimplemented 0x14#8 s

/-- STSW: raises `UnimplementedOpcode(0xE8)` (R80). -/
def execStsw (_m : Operand) (s : State) : StepResult := raiseUnimplemented 0xE8#8 s

/-- STX: raises `UnimplementedOpcode(0x10)` (R81). -/
def execStx (_m : Operand) (s : State) : StepResult := raiseUnimplemented 0x10#8 s

/-- TD: raises `UnimplementedOpcode(0xE0)` (R82). -/
def execTd (_m : Operand) (s : State) : StepResult := raiseUnimplemented 0xE0#8 s

/-- TIX: raises `UnimplementedOpcode(0x2C)` (R83). -/
def execTix (_m : Operand) (s : State) : StepResult := raiseUnimplemented 0x2C#8 s

/-- WD: raises `UnimplementedOpcode(0xDC)` (R84). -/
def execWd (_m : Operand) (s : State) : StepResult := raiseUnimplemented 0xDC#8 s

/-- An opcode byte no mnemonic names: raises `UnimplementedOpcode(opcode)` (R85). -/
def execUnassigned (op : Byte) (_m : Operand) (s : State) : StepResult := raiseUnimplemented op s

end Sys2Proof.Machine
end

