-- ==== Sys2Proof/Machine/Dispatch.lean ====
section
/-! DEFINITION. Dispatch: one arm per instruction, each the direct call of its meaning (30_encoding.md R45, R46). -/

namespace Sys2Proof.Machine

def exec (i : Instr) (s : State) : Host.Outcome State Fault Refusal :=
  match i with
  | .lda m => Sys2Proof.Machine.execLda m s
  | .sta m => Sys2Proof.Machine.execSta m s
  | .add m => Sys2Proof.Machine.execAdd m s
  | .sub m => Sys2Proof.Machine.execSub m s
  | .comp m => Sys2Proof.Machine.execComp m s
  | .jeq m => Sys2Proof.Machine.execJeq m s
  | .j m => Sys2Proof.Machine.execJ m s
  | .and m => Sys2Proof.Machine.execAnd m s
  | .div m => Sys2Proof.Machine.execDiv m s
  | .jgt m => Sys2Proof.Machine.execJgt m s
  | .jlt m => Sys2Proof.Machine.execJlt m s
  | .jsub m => Sys2Proof.Machine.execJsub m s
  | .ldch m => Sys2Proof.Machine.execLdch m s
  | .ldl m => Sys2Proof.Machine.execLdl m s
  | .ldx m => Sys2Proof.Machine.execLdx m s
  | .mul m => Sys2Proof.Machine.execMul m s
  | .or m => Sys2Proof.Machine.execOr m s
  | .rd m => Sys2Proof.Machine.execRd m s
  | .rsub m => Sys2Proof.Machine.execRsub m s
  | .stch m => Sys2Proof.Machine.execStch m s
  | .stl m => Sys2Proof.Machine.execStl m s
  | .stsw m => Sys2Proof.Machine.execStsw m s
  | .stx m => Sys2Proof.Machine.execStx m s
  | .td m => Sys2Proof.Machine.execTd m s
  | .tix m => Sys2Proof.Machine.execTix m s
  | .wd m => Sys2Proof.Machine.execWd m s
  | .unassigned op m => Sys2Proof.Machine.execUnassigned op m s

end Sys2Proof.Machine
end

