-- ==== Sys2Proof/Machine/Step.lean ====
section
/-! DEFINITION. One step: fetch, advance, dispatch, execute (30_encoding.md R51). -/

namespace Sys2Proof.Machine

/-- One step (R51). A machine whose fault record is set takes none (60_exceptions.md R95); a failing fetch raises its
fault before the advance (R52); otherwise the decoded instruction runs on the state whose PC has advanced (R53 to R55). -/
def step (s : State) : Host.Outcome State Fault Refusal :=
  match stoppedBy s with
  | some f => .fault f
  | none =>
    match fetchWord s with
    | .error f => raise f s
    | .ok w    => exec (decodeWord w) (advancePc s)

/-- `s` with the instruction word `w` (numbered as spec/opcode_table.json numbers it, `nbits` bits, the rest 0) stored
big-endian at the address `PC` holds, where `step` fetches next. Nothing else changes; a `PC` outside memory has no place
to store to (logs 8, 9). -/
def State.withFetchWord (s : State) (nbits w : Nat) : State :=
  placeAtPc (BitVec.ofNat 24 (w % 2 ^ nbits)) s

end Sys2Proof.Machine
end

