-- ==== Sys2Proof/Machine/HostInterface.lean ====
section
/-! DEFINITION. What the host can do to the machine between steps (70_reset_and_hazards.md R107 to R113). -/

namespace Sys2Proof.Machine

/-- What a host call answers. -/
inductive HostResult (α : Type) where
  /-- The call did what it does. -/
  | done (value : α)
  /-- The call raised an error, changed nothing and recorded nothing (R113). -/
  | raised (f : Fault)
  /-- The model admits no such call: a launch outside R110, or a change of a machine that has faulted other than
  `reset()` (60_exceptions.md R98; log 5). -/
  | notAdmitted
  deriving DecidableEq, Repr

/-- The answer of a primitive as the answer of a host port. -/
def HostResult.ofExcept {α : Type} : Except Fault α → HostResult α
  | .ok v    => .done v
  | .error f => .raised f

/-- After a fault "the host may only inspect the state, or call `reset()`" (60_exceptions.md R98). -/
def unlessFaulted {α : Type} (s : State) (r : HostResult α) : HostResult α :=
  match s.fault with
  | none   => r
  | some _ => .notAdmitted

/-! ### Reset and launch -/

/-- `reset()`: memory and registers back to zero, the fault record empty (R107); the parameter `SW_ENC` of the machine
stays (log 2). -/
def hostReset (s : State) : State := State.created s.swEnc

/-- `MemWrite(s + 3*i, 3, w_i)` for each word of the list in turn (R109). -/
def Memory.setWords : Memory → Nat → List Int → Memory
  | m, _, []      => m
  | m, a, w :: ws => Memory.setWords (m.setWord a (mask24 w)) (a + Config.wordBytes) ws

/-- "every word is in `[0, 0xFFFFFF]` and the whole image fits" (R110). -/
def launchAdmitted (words : List Int) (start : Int) : Bool :=
  words.all (fun w => decide (0 ≤ w ∧ w ≤ 0xFFFFFF)) &&
    decide (0 ≤ start ∧ start + Config.wordBytes * words.length ≤ Config.memSize)

/-- `load_program(words, start)`: writes the words at consecutive addresses, then `PC <- start`; no other byte or
register changes (R109). -/
def loadProgram (words : List Int) (start : Int) (s : State) : HostResult State :=
  if launchAdmitted words start then
    unlessFaulted s (.done (State.setReg { s with mem := Memory.setWords s.mem start.toNat words } .PC start))
  else .notAdmitted

/-! ### Register, memory, decoder and table ports -/

/-- The register a name stands for, the five names exactly as 10_state.md R5 writes them (log 6). -/
def regNamed (name : String) : Option RegName :=
  if name = "A" then some .A
  else if name = "X" then some .X
  else if name = "L" then some .L
  else if name = "PC" then some .PC
  else if name = "SW" then some .SW
  else none

/-- Register get; `UnknownRegister` for a name outside the set (10_state.md R7, R8). -/
def hostGetReg (name : String) (s : State) : HostResult Word :=
  match regNamed name with
  | some n => .done (s.reg n)
  | none   => .raised (.unknownRegister name)

/-- Register set: stores `mask24(v)`, any register (10_state.md R6, R8). -/
def hostSetReg (name : String) (v : Int) (s : State) : HostResult State :=
  match regNamed name with
  | some n => unlessFaulted s (.done (s.setReg n v))
  | none   => .raised (.unknownRegister name)

/-- `read_byte(address)` (20_memory.md R21). -/
def hostReadByte (a : Int) (s : State) : HostResult Byte := .ofExcept (memReadByte .dataRead a s)

/-- `read_word(address)` (20_memory.md R23). -/
def hostReadWord (a : Int) (s : State) : HostResult Word := .ofExcept (memReadWord .dataRead a s)

/-- `write_byte(address, value)` (20_memory.md R22). -/
def hostWriteByte (a v : Int) (s : State) : HostResult State := unlessFaulted s (.ofExcept (memWriteByte a v s))

/-- `write_word(address, value)` (20_memory.md R24). -/
def hostWriteWord (a v : Int) (s : State) : HostResult State := unlessFaulted s (.ofExcept (memWriteWord a v s))

/-- Decode a value (30_encoding.md R38, R39). -/
def hostDecode (v : Int) : HostResult Fields :=
  match decodeInt v with
  | .ok f    => .done f
  | .error _ => .raised (.invalidWord v)

/-- `get_opcode(mnemonic)` (30_encoding.md R48). -/
def hostGetOpcode (name : String) : HostResult Byte :=
  match getOpcode name with
  | some op => .done op
  | none    => .raised (.unknownMnemonic name)

/-- `is_mnemonic(mnemonic)`, which never fails (30_encoding.md R49). -/
def hostIsMnemonic (name : String) : Bool := isMnemonic name

/-! ### The host's changes of a machine as data -/

/-- A host call that can change the state (R113). -/
inductive HostAction where
  | reset
  | loadProgram (words : List Int) (start : Int)
  | setReg (name : String) (v : Int)
  | writeByte (a v : Int)
  | writeWord (a v : Int)
  deriving DecidableEq, Repr

/-- What the call does. -/
def HostAction.apply (h : HostAction) (s : State) : HostResult State :=
  match h with
  | .reset                   => .done (hostReset s)
  | .loadProgram words start => Sys2Proof.Machine.loadProgram words start s
  | .setReg name v           => hostSetReg name v s
  | .writeByte a v           => hostWriteByte a v s
  | .writeWord a v           => hostWriteWord a v s

/-! ### Runs -/

/-- How a run ends (R112). -/
inductive RunEnd where
  /-- All steps of the budget executed with no fault. -/
  | completed (s : State)
  /-- Stopped at a fault, in the state 60_exceptions.md R94 gives. -/
  | faulted (f : Fault) (s : State)
  /-- A step was refused; no step of this model is. -/
  | refused (r : Refusal)
  deriving DecidableEq, Repr

/-- `run(steps)`: up to `N` steps in sequence, stopping at once at a fault (R111, R112). -/
def run : Nat → State → RunEnd
  | 0, s =>
    match s.fault with
    | none   => .completed s
    | some f => .faulted f s
  | n + 1, s =>
    match s.fault with
    | some f => .faulted f s
    | none =>
      match step s with
      | .next t    => run n t
      | .fault f   => .faulted f s
      | .refused r => .refused r

end Sys2Proof.Machine
end

