-- ==== Sys2Proof/Safety.lean ====
section
/-! DEFINITION. The terms claims use: the invariant of every state a machine can be in, and which states those are. -/

namespace Sys2Proof.Machine

/-- The faults a step can raise, with what each records (60_exceptions.md R86 to R88): an `OutOfBounds` of a word access
past the last word address, formed as a natural number of at most 25 bits, or the `UnimplementedOpcode` of an opcode
byte without a handler. -/
def Fault.raisableByStep : Fault → Bool
  | .outOfBounds a .word _ => decide ((Config.memSize : Int) - 3 < a ∧ a ≤ 0x1007FFE)
  | .unimplementedOpcode op => !hasHandler op
  | .outOfBounds _ .byte _ | .invalidWord _ | .unknownRegister _ | .unknownMnemonic _ | .duplicateSymbol _ => false

/-- The invariant of the machine: memory is in canonical form, the three sentinels are pairwise distinct (D1), and a
recorded fault is one a step can raise. -/
structure State.Inv (s : State) : Prop where
  mem_wf      : s.mem.wf = true
  sw_distinct : s.swEnc.distinct = true
  fault_ok    : ∀ f, s.fault = some f → f.raisableByStep = true

/-- The states of a machine created with `enc`: its creation state, and whatever a step or a host call makes of such a
state (70_reset_and_hazards.md R106, R113). -/
inductive Reachable (enc : SwEnc) : State → Prop where
  | created : Reachable enc (State.created enc)
  | stepped (s t : State) : Reachable enc s → step s = .next t → Reachable enc t
  | host (h : HostAction) (s t : State) : Reachable enc s → h.apply s = .done t → Reachable enc t

/-- A safe state: no fault has been recorded ("A faulted state is never a successful end of a run", 60_exceptions.md
R95). -/
def State.safe (s : State) : Bool := decide (s.fault = none)

/-- `s` is about to execute `w`: it has not faulted, and `w` is the word at `PC`, inside memory. -/
abbrev State.fetches (s : State) (w : Word) : Prop :=
  s.fault = none ∧ s.pc.toNat ≤ Config.memSize - 3 ∧ s.mem.wordAt s.pc.toNat = w

/-- What 43_table_only.md says of one table-only mnemonic: its words decode to it; executing it, and so a step that
fetches one, raises `UnimplementedOpcode(op)` and changes nothing but the PC advance; and it stays a table entry. -/
def TableOnlyRule (mk : Operand → Instr) (op : Byte) (lower upper : String) : Prop :=
  (∀ (m : Operand) (s : State), exec (mk m) s = .next { s with fault := some (.unimplementedOpcode op) }) ∧
  (∀ w : Word, w.extractLsb' 16 8 = op → decodeWord w = mk (fieldsOf w).operand) ∧
  (∀ (s : State) (w : Word), s.fetches w → w.extractLsb' 16 8 = op →
    step s = .next { s with pc := s.pc + 3#24, fault := some (.unimplementedOpcode op) }) ∧
  getOpcode lower = some op ∧ isMnemonic upper = true

end Sys2Proof.Machine
end

