-- ==== Sys2Proof/Certificates/Slice0/Obligations.lean ====
section
/-! DEFINITION. What is stated of the machine, for the provers. OBLIGATIONS.json lists each with the rule it formalises. -/

open Sys2Proof Sys2Proof.Machine

/-! ### Encoding -/

/-- Decoding the bytes of a well-formed instruction gives the instruction back and leaves the bytes after it
(30_encoding.md R37, R38, R50). -/
def Obligations.DecodeOfEncodeIsTheInstruction : Prop :=
  ∀ (i : Instr) (rest : List Byte), i.wellFormed = true →
    decode (encode i ++ rest) = .ok (i, rest) ∧ decodeWord (encodeWord i) = i

/-- Every 24-bit word decodes to a well-formed instruction whose word it is: no bit is dropped (30_encoding.md R40). -/
def Obligations.EveryWordIsTheWordOfItsInstruction : Prop :=
  ∀ w : Word, (decodeWord w).wellFormed = true ∧ encodeWord (decodeWord w) = w

/-- The three fields, as bits of the word (30_encoding.md R38) and as bits of the three fetched bytes (R37, a view the spec
derives from R38 and R23). -/
def Obligations.FieldsAreTheFormatsBits : Prop :=
  (∀ w : Word,
    (fieldsOf w).opcode.toNat = w.toNat / 2 ^ 16 ∧
    ((fieldsOf w).operand.x = true ↔ w.toNat / 2 ^ 15 % 2 = 1) ∧
    (fieldsOf w).operand.address.toNat = w.toNat % 2 ^ 15) ∧
  (∀ b0 b1 b2 : Byte,
    (fieldsOf (wordOfBytes b0 b1 b2)).opcode = b0 ∧
    ((fieldsOf (wordOfBytes b0 b1 b2)).operand.x = true ↔ 128 ≤ b1.toNat) ∧
    (fieldsOf (wordOfBytes b0 b1 b2)).operand.address.toNat = b1.toNat % 128 * 256 + b2.toNat)

/-- Words written out from the spec's encodings decode to the instructions they stand for (W8 to W11, V13 to V17 of
95_test_vectors.md and the match values of opcode_table.json). -/
def Obligations.SpecWordsDecode : Prop :=
  decode [0x00#8, 0x10#8, 0x50#8] = .ok (.lda ⟨false, 0x1050#15⟩, []) ∧
  decode [0x0C#8, 0xA0#8, 0x80#8] = .ok (.sta ⟨true, 0x2080#15⟩, []) ∧
  decode [0x0C#8, 0x20#8, 0x80#8] = .ok (.sta ⟨false, 0x2080#15⟩, []) ∧
  decode [0x18#8, 0x7F#8, 0xFF#8] = .ok (.add ⟨false, 0x7FFF#15⟩, []) ∧
  decode [0x28#8, 0x31#8, 0x00#8] = .ok (.comp ⟨false, 0x3100#15⟩, []) ∧
  decode [0x3C#8, 0x80#8, 0x00#8] = .ok (.j ⟨true, 0x0000#15⟩, []) ∧
  decode [0x48#8, 0x00#8, 0x00#8] = .ok (.jsub ⟨false, 0x0000#15⟩, []) ∧
  decode [0xFF#8, 0xFF#8, 0xFF#8] = .ok (.unassigned 0xFF#8 ⟨true, 0x7FFF#15⟩, [])

/-- The decoder given an integer rejects exactly the values outside a word, and no step raises `InvalidWord`
(30_encoding.md R39). -/
def Obligations.DecoderRejectsExactlyValuesOutsideAWord : Prop :=
  ∀ v : Int,
    ((v < 0 ∨ 0xFFFFFF < v) → hostDecode v = .raised (.invalidWord v)) ∧
    (0 ≤ v ∧ v ≤ 0xFFFFFF → hostDecode v = .done (fieldsOf (BitVec.ofInt 24 v))) ∧
    (∀ s t : State, s.fault = none → step s = .next t → t.fault ≠ some (.invalidWord v))

/-- `get_opcode` over every string: exactly the 26 entries, after uppercasing (30_encoding.md R47, R48;
the table's extent and the ASCII uppercasing are the spec's own decisions D5 and D6, log 10). -/
def Obligations.GetOpcodeIsTheTableOfTwentySixEntries : Prop :=
  (∀ c : Char, upperChar c = if 97 ≤ c.toNat ∧ c.toNat ≤ 122 then Char.ofNat (c.toNat - 32) else c) ∧
  (∀ (name : String) (op : Byte), hostGetOpcode name = .done op ↔
    (String.ofList (name.toList.map upperChar), op) ∈
      [("ADD", 0x18#8), ("AND", 0x40#8), ("COMP", 0x28#8), ("DIV", 0x24#8), ("J", 0x3C#8), ("JEQ", 0x30#8),
       ("JGT", 0x34#8), ("JLT", 0x38#8), ("JSUB", 0x48#8), ("LDA", 0x00#8), ("LDCH", 0x50#8), ("LDL", 0x08#8),
       ("LDX", 0x04#8), ("MUL", 0x20#8), ("OR", 0x44#8), ("RD", 0xD8#8), ("RSUB", 0x4C#8), ("STA", 0x0C#8),
       ("STCH", 0x54#8), ("STL", 0x14#8), ("STSW", 0xE8#8), ("STX", 0x10#8), ("SUB", 0x1C#8), ("TD", 0xE0#8),
       ("TIX", 0x2C#8), ("WD", 0xDC#8)]) ∧
  (∀ name : String, (∀ op : Byte, hostGetOpcode name ≠ .done op) →
    hostGetOpcode name = .raised (.unknownMnemonic name))

/-- `is_mnemonic` is true exactly when `get_opcode` would succeed, and depends on the uppercased name only
(30_encoding.md R49). -/
def Obligations.IsMnemonicExactlyWhenGetOpcodeSucceeds : Prop :=
  (∀ name : String, hostIsMnemonic name = true ↔ ∃ op : Byte, hostGetOpcode name = .done op) ∧
  (∀ name other : String, upperName name = upperName other → hostIsMnemonic name = hostIsMnemonic other) ∧
  hostIsMnemonic "JSUB" = true

/-! ### The step -/

/-- The four phases of a step, in order (30_encoding.md R51, R52, R54). -/
def Obligations.StepFetchesAdvancesDispatchesExecutes : Prop :=
  ∀ s : State, s.fault = none →
    (Config.memSize - 3 < s.pc.toNat →
      step s = .next { s with fault := some (.outOfBounds s.pc.toNat .word .fetch) }) ∧
    (∀ w : Word, s.fetches w →
      (hasHandler (w.extractLsb' 16 8) = false →
        step s = .next { s with pc := s.pc + 3#24, fault := some (.unimplementedOpcode (w.extractLsb' 16 8)) }) ∧
      (hasHandler (w.extractLsb' 16 8) = true → step s = exec (decodeWord w) { s with pc := s.pc + 3#24 }))

/-- A step runs the instruction that the three bytes at `PC` decode to, on the state whose PC has advanced by 3; the
sum does not wrap (30_encoding.md R51, R53; 10_state.md R13). -/
def Obligations.StepRunsTheDecodedInstruction : Prop :=
  ∀ (s : State) (i : Instr), s.fault = none → s.pc.toNat ≤ Config.memSize - 3 →
    decode [s.mem.byteAt s.pc.toNat, s.mem.byteAt (s.pc.toNat + 1), s.mem.byteAt (s.pc.toNat + 2)] = .ok (i, []) →
    i.wellFormed = true ∧
    step s = exec i { s with pc := s.pc + 3#24 } ∧ (s.pc + 3#24).toNat = s.pc.toNat + 3

/-- The PC at the end of a step whose fetch succeeded: the fetch address plus 3, except after a J or a taken JEQ, where
it is `mask24(EA)` (10_state.md R11). -/
def Obligations.PcAfterAStep : Prop :=
  ∀ (s t : State) (w : Word), s.fetches w → step s = .next t →
    (∀ m : Operand, decodeWord w = .j m ∨ (decodeWord w = .jeq m ∧ s.sw = s.swEnc.swEq) →
      t.pc.toNat = effAddr m s % 2 ^ 24) ∧
    ((∀ m : Operand, decodeWord w ≠ .j m ∧ (decodeWord w = .jeq m → s.sw ≠ s.swEnc.swEq)) →
      t.pc.toNat = s.pc.toNat + 3)

/-- An opcode byte outside the seven of the dispatch table raises `UnimplementedOpcode` after the advance, and one of
the seven never does; the all-zero word is LDA 0 (30_encoding.md R46; the handler set is the spec's own
decision D4). -/
def Obligations.OpcodesWithoutHandlerRaiseUnimplemented : Prop :=
  (∀ (s : State) (w : Word), s.fetches w →
    (w.extractLsb' 16 8 ∉ [0x00#8, 0x0C#8, 0x18#8, 0x1C#8, 0x28#8, 0x30#8, 0x3C#8] →
      step s = .next { s with pc := s.pc + 3#24, fault := some (.unimplementedOpcode (w.extractLsb' 16 8)) }) ∧
    (w.extractLsb' 16 8 ∈ [0x00#8, 0x0C#8, 0x18#8, 0x1C#8, 0x28#8, 0x30#8, 0x3C#8] →
      ∃ t : State, step s = .next t ∧ ∀ op : Byte, t.fault ≠ some (.unimplementedOpcode op))) ∧
  decodeWord 0x000000#24 = .lda ⟨false, 0x0000#15⟩

/-- A machine that has not faulted always takes its step, a machine that has never does, and no step is refused
(30_encoding.md R51; 60_exceptions.md R93, R95; that a raised fault is a next state is the model's form, log 1). -/
def Obligations.StepAnswersNextExactlyWhenNotFaulted : Prop :=
  ∀ s : State,
    (s.fault = none → ∃ t : State, step s = .next t) ∧
    (∀ f : Fault, s.fault = some f ↔ step s = .fault f) ∧
    (∀ r : Refusal, step s ≠ .refused r)

/-! ### Registers, operands and memory -/

/-- A register write stores `mask24(v)` in that register and in nothing else, by an instruction's write and by the
host's alike, and never raises a fault; a read returns it; each name is one independent cell, 0 at creation
(10_state.md R6, R7, R10). -/
def Obligations.RegisterWriteStoresMask24InOneCell : Prop :=
  (∀ (s : State) (n : RegName) (v : Int),
    (s.setReg n v).reg n = BitVec.ofInt 24 v ∧ (∀ k : RegName, k ≠ n → (s.setReg n v).reg k = s.reg k) ∧
    (s.setReg n v).mem = s.mem ∧ (s.setReg n v).fault = s.fault ∧ (s.setReg n v).swEnc = s.swEnc) ∧
  (∀ (s : State) (v : Int), s.fault = none →
    hostSetReg "A" v s = .done (s.setReg .A v) ∧ hostSetReg "X" v s = .done (s.setReg .X v) ∧
    hostSetReg "L" v s = .done (s.setReg .L v) ∧ hostSetReg "PC" v s = .done (s.setReg .PC v) ∧
    hostSetReg "SW" v s = .done (s.setReg .SW v)) ∧
  (∀ s : State,
    hostGetReg "A" s = .done s.a ∧ hostGetReg "X" s = .done s.x ∧ hostGetReg "L" s = .done s.l ∧
    hostGetReg "PC" s = .done s.pc ∧ hostGetReg "SW" s = .done s.sw) ∧
  (∀ (enc : SwEnc) (n : RegName), (State.created enc).reg n = 0#24)

/-- A register named outside {A, X, L, PC, SW} is a hard failure of the host's call, and no step raises it
(10_state.md R8; 60_exceptions.md R90). That a name in another case is such a name is log 6, and that the set still raises
it on a faulted machine is log 5, both inferences of the model. -/
def Obligations.UnknownRegisterNamesAreRejected : Prop :=
  ∀ (name : String), name ∉ ["A", "X", "L", "PC", "SW"] →
    (∀ (s : State) (v : Int),
      hostGetReg name s = .raised (.unknownRegister name) ∧ hostSetReg name v s = .raised (.unknownRegister name)) ∧
    (∀ s t : State, s.fault = none → step s = .next t → t.fault ≠ some (.unknownRegister name))

/-- The effective address is the unreduced sum; a data access is bounds-checked on it, so it never wraps to low memory; a
jump stores it reduced by `mask24`; and no handler changes `X` (30_encoding.md R43; that the sum is not reduced is
the spec's own decision D3). -/
def Obligations.EffectiveAddressIsTheUnreducedSum : Prop :=
  (∀ (a : AddrField) (s : State),
    effAddr ⟨false, a⟩ s = a.toNat ∧ effAddr ⟨true, a⟩ s = a.toNat + s.x.toNat) ∧
  (∀ (m : Operand) (s : State), effAddr m s ≤ 0x1007FFE) ∧
  (∀ (m : Operand) (s : State), Config.memSize - 3 < effAddr m s →
    (∀ i ∈ [Instr.lda m, .add m, .sub m, .comp m],
      exec i s = .next { s with fault := some (.outOfBounds (effAddr m s) .word .dataRead) }) ∧
    exec (.sta m) s = .next { s with fault := some (.outOfBounds (effAddr m s) .word .dataWrite) }) ∧
  (∀ (m : Operand) (s : State), exec (.j m) s = .next { s with pc := BitVec.ofNat 24 (effAddr m s) }) ∧
  (∀ (i : Instr) (s t : State), exec i s = .next t → t.x = s.x)

/-- A word read succeeds exactly inside `[0, MEM_SIZE - 3]` and answers the three bytes big-endian (20_memory.md R23). -/
def Obligations.WordReadIsBigEndianAndBounded : Prop :=
  ∀ (k : AccessKind) (a : Int) (s : State),
    (0 ≤ a ∧ a ≤ 32765 →
      memReadWord k a s = .ok (s.mem.wordAt a.toNat) ∧
      (s.mem.wordAt a.toNat).toNat =
        (s.mem.byteAt a.toNat).toNat * 2 ^ 16 + (s.mem.byteAt (a.toNat + 1)).toNat * 2 ^ 8 +
          (s.mem.byteAt (a.toNat + 2)).toNat) ∧
    ((a < 0 ∨ 32765 < a) → memReadWord k a s = .error (.outOfBounds a .word k))

/-- A word write stores the three bytes of `mask24(v)` and changes no byte outside its span; out of bounds it changes
nothing (20_memory.md R24). -/
def Obligations.WordWriteStoresThreeBytesAndNoOther : Prop :=
  ∀ (a v : Int) (s : State),
    (0 ≤ a ∧ a ≤ 32765 → ∃ t : State, memWriteWord a v s = .ok t ∧
      t.mem.byteAt a.toNat = (BitVec.ofInt 24 v).extractLsb' 16 8 ∧
      t.mem.byteAt (a.toNat + 1) = (BitVec.ofInt 24 v).extractLsb' 8 8 ∧
      t.mem.byteAt (a.toNat + 2) = (BitVec.ofInt 24 v).extractLsb' 0 8 ∧
      (∀ b : Nat, b < a.toNat ∨ a.toNat + 2 < b → t.mem.byteAt b = s.mem.byteAt b) ∧
      t = { s with mem := t.mem } ∧
      ∀ k : AccessKind, memReadWord k a t = .ok (BitVec.ofInt 24 v)) ∧
    ((a < 0 ∨ 32765 < a) → memWriteWord a v s = .error (.outOfBounds a .word .dataWrite))

/-- Byte reads (20_memory.md R21) and byte writes (R22). -/
def Obligations.ByteAccessesAreBoundedAndTouchOneByte : Prop :=
  (∀ (k : AccessKind) (a : Int) (s : State),
    (0 ≤ a ∧ a < 32768 → memReadByte k a s = .ok (s.mem.byteAt a.toNat)) ∧
    ((a < 0 ∨ 32768 ≤ a) → memReadByte k a s = .error (.outOfBounds a .byte k))) ∧
  (∀ (a v : Int) (s : State),
    (0 ≤ a ∧ a < 32768 → ∃ t : State, memWriteByte a v s = .ok t ∧
      t.mem.byteAt a.toNat = BitVec.ofInt 8 v ∧
      (∀ b : Nat, b ≠ a.toNat → t.mem.byteAt b = s.mem.byteAt b) ∧ t = { s with mem := t.mem }) ∧
    ((a < 0 ∨ 32768 ≤ a) → memWriteByte a v s = .error (.outOfBounds a .byte .dataWrite)))

/-- The host's memory ports: each answers what its primitive does, and a refused access raises `OutOfBounds` and gives no new
state (20_memory.md R21 to R24; 70_reset_and_hazards.md R113). The access kind a port's error names, `dataRead` or
`dataWrite`, is the model's choice, log 4. Writes to a faulted machine are in `RecordedFaultEndsTheRun`. -/
def Obligations.HostMemoryPortsAnswerWhatThePrimitivesAnswer : Prop :=
  (∀ (a : Int) (s : State),
    (0 ≤ a ∧ a < 32768 → hostReadByte a s = .done (s.mem.byteAt a.toNat)) ∧
    ((a < 0 ∨ 32768 ≤ a) → hostReadByte a s = .raised (.outOfBounds a .byte .dataRead)) ∧
    (0 ≤ a ∧ a ≤ 32765 → hostReadWord a s = .done (s.mem.wordAt a.toNat)) ∧
    ((a < 0 ∨ 32765 < a) → hostReadWord a s = .raised (.outOfBounds a .word .dataRead))) ∧
  (∀ (a v : Int) (s : State), s.fault = none →
    (0 ≤ a ∧ a < 32768 → ∃ t : State, memWriteByte a v s = .ok t ∧ hostWriteByte a v s = .done t ∧
      hostReadByte a t = .done (BitVec.ofInt 8 v)) ∧
    ((a < 0 ∨ 32768 ≤ a) → hostWriteByte a v s = .raised (.outOfBounds a .byte .dataWrite)) ∧
    (0 ≤ a ∧ a ≤ 32765 → ∃ t : State, memWriteWord a v s = .ok t ∧ hostWriteWord a v s = .done t ∧
      hostReadWord a t = .done (BitVec.ofInt 24 v)) ∧
    ((a < 0 ∨ 32765 < a) → hostWriteWord a v s = .raised (.outOfBounds a .word .dataWrite)))

/-- Byte order of every access, fetch included: bytes of a written word, the word of written bytes, and overlapping
words (20_memory.md R26). -/
def Obligations.MixedWidthAccessesAreBigEndian : Prop :=
  (∀ (a v : Int) (s t : State), memWriteWord a v s = .ok t →
    memReadByte .dataRead a t = .ok ((BitVec.ofInt 24 v).extractLsb' 16 8) ∧
    memReadByte .dataRead (a + 1) t = .ok ((BitVec.ofInt 24 v).extractLsb' 8 8) ∧
    memReadByte .dataRead (a + 2) t = .ok ((BitVec.ofInt 24 v).extractLsb' 0 8)) ∧
  (∀ (a v0 v1 v2 : Int) (s t0 t1 t2 : State), memWriteByte a v0 s = .ok t0 → memWriteByte (a + 1) v1 t0 = .ok t1 →
    memWriteByte (a + 2) v2 t1 = .ok t2 →
    memReadWord .dataRead a t2 = .ok ((BitVec.ofInt 8 v0 ++ BitVec.ofInt 8 v1) ++ BitVec.ofInt 8 v2)) ∧
  (∀ (a v : Int) (s t : State), 0 ≤ a → memWriteWord (a + 1) v s = .ok t →
    memReadWord .dataRead a t =
      .ok ((s.mem.byteAt a.toNat ++ (BitVec.ofInt 24 v).extractLsb' 16 8) ++ (BitVec.ofInt 24 v).extractLsb' 8 8)) ∧
  (∀ s : State, fetchWord s = memReadWord .fetch s.pc.toNat s)

/-- Equal memories are equal data: two canonical memories that agree on every byte of the machine are one list
(20_memory.md R19, R20; the canonical form is the model's, log 7). -/
def Obligations.CanonicalMemoriesWithEqualBytesAreEqual : Prop :=
  ∀ m n : Memory, m.wf = true → n.wf = true → (∀ a : Nat, a < Config.memSize → m.byteAt a = n.byteAt a) → m = n

/-- Storing the word a location already holds changes nothing at all, and storing twice is storing once
(20_memory.md R29). -/
def Obligations.StoringTheSameWordAgainChangesNothing : Prop :=
  ∀ (m : Operand) (s : State), s.mem.wf = true → effAddr m s ≤ Config.memSize - 3 →
    (s.mem.wordAt (effAddr m s) = s.a → exec (.sta m) s = .next s) ∧
    (∀ t : State, exec (.sta m) s = .next t → exec (.sta m) t = .next t)

/-! ### The instructions -/

/-- LDA: its words, its effect and its fault (40_load_store.md R57). -/
def Obligations.LdaLoadsTheWordAtTheEffectiveAddress : Prop :=
  (∀ w : Word, w &&& 0xFF0000#24 = 0x000000#24 → decodeWord w = .lda (fieldsOf w).operand) ∧
  (∀ (m : Operand) (s : State),
    (effAddr m s ≤ Config.memSize - 3 → exec (.lda m) s = .next { s with a := s.mem.wordAt (effAddr m s) }) ∧
    (Config.memSize - 3 < effAddr m s →
      exec (.lda m) s = .next { s with fault := some (.outOfBounds (effAddr m s) .word .dataRead) }))

/-- STA: its words, its effect and its fault (40_load_store.md R58). -/
def Obligations.StaStoresTheAccumulator : Prop :=
  (∀ w : Word, w &&& 0xFF0000#24 = 0x0C0000#24 → decodeWord w = .sta (fieldsOf w).operand) ∧
  (∀ (m : Operand) (s : State),
    (effAddr m s ≤ Config.memSize - 3 → ∃ t : State, exec (.sta m) s = .next t ∧
      t = { s with mem := t.mem } ∧ t.mem.wordAt (effAddr m s) = s.a ∧
      t.mem.byteAt (effAddr m s) = s.a.extractLsb' 16 8 ∧
      t.mem.byteAt (effAddr m s + 1) = s.a.extractLsb' 8 8 ∧
      t.mem.byteAt (effAddr m s + 2) = s.a.extractLsb' 0 8 ∧
      ∀ b : Nat, b < effAddr m s ∨ effAddr m s + 2 < b → t.mem.byteAt b = s.mem.byteAt b) ∧
    (Config.memSize - 3 < effAddr m s →
      exec (.sta m) s = .next { s with fault := some (.outOfBounds (effAddr m s) .word .dataWrite) }))

/-- ADD: its words, its effect modulo 2^24 and its fault (41_arith_compare.md R59). -/
def Obligations.AddStoresTheSumModulo : Prop :=
  (∀ w : Word, w &&& 0xFF0000#24 = 0x180000#24 → decodeWord w = .add (fieldsOf w).operand) ∧
  (∀ (m : Operand) (s : State),
    (effAddr m s ≤ Config.memSize - 3 →
      exec (.add m) s =
        .next { s with a := BitVec.ofNat 24 ((s.a.toNat + (s.mem.wordAt (effAddr m s)).toNat) % 2 ^ 24) }) ∧
    (Config.memSize - 3 < effAddr m s →
      exec (.add m) s = .next { s with fault := some (.outOfBounds (effAddr m s) .word .dataRead) }))

/-- SUB: its words, its effect `(A - m + 2^24) mod 2^24` and its fault (41_arith_compare.md R60). -/
def Obligations.SubStoresTheDifferenceModulo : Prop :=
  (∀ w : Word, w &&& 0xFF0000#24 = 0x1C0000#24 → decodeWord w = .sub (fieldsOf w).operand) ∧
  (∀ (m : Operand) (s : State),
    (effAddr m s ≤ Config.memSize - 3 →
      exec (.sub m) s =
        .next { s with a := BitVec.ofNat 24 ((s.a.toNat + 2 ^ 24 - (s.mem.wordAt (effAddr m s)).toNat) % 2 ^ 24) }) ∧
    (Config.memSize - 3 < effAddr m s →
      exec (.sub m) s = .next { s with fault := some (.outOfBounds (effAddr m s) .word .dataRead) }))

/-- COMP: its words, the sentinel it writes for each outcome of the unsigned comparison, whatever the three sentinels
are, and its fault (41_arith_compare.md R61; that the comparison is unsigned is the spec's own decision D2). -/
def Obligations.CompWritesTheSentinelOfTheUnsignedComparison : Prop :=
  (∀ w : Word, w &&& 0xFF0000#24 = 0x280000#24 → decodeWord w = .comp (fieldsOf w).operand) ∧
  (∀ (m : Operand) (s : State),
    (effAddr m s ≤ Config.memSize - 3 →
      (s.a.toNat < (s.mem.wordAt (effAddr m s)).toNat → exec (.comp m) s = .next { s with sw := s.swEnc.swLt }) ∧
      (s.a = s.mem.wordAt (effAddr m s) → exec (.comp m) s = .next { s with sw := s.swEnc.swEq }) ∧
      ((s.mem.wordAt (effAddr m s)).toNat < s.a.toNat → exec (.comp m) s = .next { s with sw := s.swEnc.swGt })) ∧
    (Config.memSize - 3 < effAddr m s →
      exec (.comp m) s = .next { s with fault := some (.outOfBounds (effAddr m s) .word .dataRead) }))

/-- J: its words and its effect, never a fault; `J p` at address `p` leaves the machine as it was (42_jumps.md R63). -/
def Obligations.JStoresTheTargetInPc : Prop :=
  (∀ w : Word, w &&& 0xFF0000#24 = 0x3C0000#24 → decodeWord w = .j (fieldsOf w).operand) ∧
  (∀ (m : Operand) (s : State), exec (.j m) s = .next { s with pc := BitVec.ofNat 24 (effAddr m s % 2 ^ 24) }) ∧
  (∀ s : State, s.fetches (0x3C0000#24 + s.pc) → step s = .next s)

/-- JEQ: its words; taken exactly when `SW = SW_EQ`, whatever `SW_EQ` is and whatever wrote `SW`; no fault, and `SW`
keeps its value so that a second JEQ tests the same result (42_jumps.md R64). -/
def Obligations.JeqJumpsExactlyWhenSwIsEqual : Prop :=
  (∀ w : Word, w &&& 0xFF0000#24 = 0x300000#24 → decodeWord w = .jeq (fieldsOf w).operand) ∧
  (∀ (m : Operand) (s : State),
    (s.sw = s.swEnc.swEq → exec (.jeq m) s = .next { s with pc := BitVec.ofNat 24 (effAddr m s % 2 ^ 24) }) ∧
    (s.sw ≠ s.swEnc.swEq → exec (.jeq m) s = .next s)) ∧
  (∀ (m n : Operand) (s t u : State), exec (.jeq m) s = .next t → exec (.jeq n) t = .next u →
    u.sw = s.sw ∧ (s.sw = s.swEnc.swEq → u.pc = BitVec.ofNat 24 (effAddr n s)) ∧ (s.sw ≠ s.swEnc.swEq → u = s))

/-- The table-only mnemonics AND, DIV, JGT, JLT, JSUB, LDCH, LDL, LDX, MUL and OR (43_table_only.md R66 to R75). -/
def Obligations.TableOnlyAndToOrRaiseUnimplemented : Prop :=
  TableOnlyRule .and 0x40#8 "and" "AND" ∧ TableOnlyRule .div 0x24#8 "div" "DIV" ∧
  TableOnlyRule .jgt 0x34#8 "jgt" "JGT" ∧ TableOnlyRule .jlt 0x38#8 "jlt" "JLT" ∧
  TableOnlyRule .jsub 0x48#8 "jsub" "JSUB" ∧ TableOnlyRule .ldch 0x50#8 "ldch" "LDCH" ∧
  TableOnlyRule .ldl 0x08#8 "ldl" "LDL" ∧ TableOnlyRule .ldx 0x04#8 "ldx" "LDX" ∧
  TableOnlyRule .mul 0x20#8 "mul" "MUL" ∧ TableOnlyRule .or 0x44#8 "or" "OR"

/-- The table-only mnemonics RD, RSUB, STCH, STL, STSW, STX, TD, TIX and WD (43_table_only.md R76 to R84). -/
def Obligations.TableOnlyRdToWdRaiseUnimplemented : Prop :=
  TableOnlyRule .rd 0xD8#8 "rd" "RD" ∧ TableOnlyRule .rsub 0x4C#8 "rsub" "RSUB" ∧
  TableOnlyRule .stch 0x54#8 "stch" "STCH" ∧ TableOnlyRule .stl 0x14#8 "stl" "STL" ∧
  TableOnlyRule .stsw 0xE8#8 "stsw" "STSW" ∧ TableOnlyRule .stx 0x10#8 "stx" "STX" ∧
  TableOnlyRule .td 0xE0#8 "td" "TD" ∧ TableOnlyRule .tix 0x2C#8 "tix" "TIX" ∧
  TableOnlyRule .wd 0xDC#8 "wd" "WD"

/-- The opcode bytes no mnemonic names: their words decode, `get_opcode` never answers one, and executing one raises
`UnimplementedOpcode(opcode)` after the advance (43_table_only.md R85, which the spec derives from D4). The
first clause ranges over every byte, and that an ill-formed `unassigned` of an assigned byte raises that byte is the
model's choice, log 11. -/
def Obligations.UnassignedOpcodeBytesRaiseUnimplemented : Prop :=
  (∀ (op : Byte) (m : Operand) (s : State),
    exec (.unassigned op m) s = .next { s with fault := some (.unimplementedOpcode op) }) ∧
  (∀ op : Byte, (op ∉ assignedOpcodes ↔ ∀ (name : String), hostGetOpcode name ≠ .done op) ∧
    (op.toNat % 4 ≠ 0 → op ∉ assignedOpcodes)) ∧
  (∀ w : Word, w.extractLsb' 16 8 ∉ assignedOpcodes →
    decodeWord w = .unassigned (w.extractLsb' 16 8) (fieldsOf w).operand) ∧
  (∀ (s : State) (w : Word), s.fetches w → w.extractLsb' 16 8 ∉ assignedOpcodes →
    step s = .next { s with pc := s.pc + 3#24, fault := some (.unimplementedOpcode (w.extractLsb' 16 8)) })

/-- ADD and SUB of the same word undo each other, through any wrap (41_arith_compare.md R62). -/
def Obligations.AddAndSubUndoEachOther : Prop :=
  ∀ (m : Operand) (s : State), effAddr m s ≤ Config.memSize - 3 →
    (∃ t : State, exec (.add m) s = .next t ∧ exec (.sub m) t = .next s) ∧
    (∃ t : State, exec (.sub m) s = .next t ∧ exec (.add m) t = .next s)

/-- JEQ after COMP is taken exactly when the accumulator equalled the word compared, for every admitted encoding of the
sentinels (41_arith_compare.md R61, 42_jumps.md R64, D1). -/
def Obligations.JeqAfterCompIsTakenExactlyOnEqual : Prop :=
  ∀ (m n : Operand) (s : State), s.swEnc.distinct = true → effAddr m s ≤ Config.memSize - 3 →
    ∃ t : State, exec (.comp m) s = .next t ∧
      (s.a = s.mem.wordAt (effAddr m s) → exec (.jeq n) t = .next { t with pc := BitVec.ofNat 24 (effAddr n s) }) ∧
      (s.a ≠ s.mem.wordAt (effAddr m s) → exec (.jeq n) t = .next t)

/-- A jump past the last word address is made without complaint and the next fetch faults there (42_jumps.md R65,
10_state.md R12). -/
def Obligations.JumpPastMemoryFaultsAtTheNextFetch : Prop :=
  ∀ (m : Operand) (s : State), s.fault = none → Config.memSize - 3 < effAddr m s % 2 ^ 24 →
    ∃ t : State, exec (.j m) s = .next t ∧ t.fault = none ∧
      step t = .next { t with fault := some (.outOfBounds ((effAddr m s % 2 ^ 24 : Nat) : Int) .word .fetch) }

/-- A store, wherever it writes (its own word included), does not change the step in progress; where it writes the word
that stands next, that word is what the next step fetches and runs (20_memory.md R35; 70_reset_and_hazards.md R117). -/
def Obligations.StoredWordIsFetchedByTheNextStep : Prop :=
  ∀ (s : State) (w : Word) (m : Operand), s.fetches w → decodeWord w = .sta m → effAddr m s ≤ Config.memSize - 3 →
    ∃ t : State, step s = .next t ∧ t = { s with pc := s.pc + 3#24, mem := t.mem } ∧
      t.mem.wordAt (effAddr m s) = s.a ∧
      (effAddr m s = s.pc.toNat + 3 →
        t.fetches s.a ∧ step t = exec (decodeWord s.a) { t with pc := s.pc + 3#24 + 3#24 })

/-! ### Frames -/

/-- What LDA, ADD, SUB, COMP, J and JEQ leave unchanged, on a fault too: all of memory, and every register but their
destination (10_state.md R9, R14; 30_encoding.md R56). -/
def Obligations.RegisterInstructionsFrame : Prop :=
  ∀ (m : Operand) (s t : State),
    ((exec (.lda m) s = .next t ∨ exec (.add m) s = .next t ∨ exec (.sub m) s = .next t) →
      t.x = s.x ∧ t.l = s.l ∧ t.pc = s.pc ∧ t.sw = s.sw ∧ t.swEnc = s.swEnc ∧
      ∀ b : Nat, t.mem.byteAt b = s.mem.byteAt b) ∧
    (exec (.comp m) s = .next t →
      t.a = s.a ∧ t.x = s.x ∧ t.l = s.l ∧ t.pc = s.pc ∧ t.swEnc = s.swEnc ∧
      ∀ b : Nat, t.mem.byteAt b = s.mem.byteAt b) ∧
    ((exec (.j m) s = .next t ∨ exec (.jeq m) s = .next t) →
      t.a = s.a ∧ t.x = s.x ∧ t.l = s.l ∧ t.sw = s.sw ∧ t.fault = s.fault ∧ t.swEnc = s.swEnc ∧
      ∀ b : Nat, t.mem.byteAt b = s.mem.byteAt b)

/-- What STA leaves unchanged: every register, and every byte outside the three it stores at its effective address; all
of memory when it faults (40_load_store.md R58). -/
def Obligations.StoreFrame : Prop :=
  ∀ (m : Operand) (s t : State), exec (.sta m) s = .next t →
    t.a = s.a ∧ t.x = s.x ∧ t.l = s.l ∧ t.pc = s.pc ∧ t.sw = s.sw ∧ t.swEnc = s.swEnc ∧
    (∀ b : Nat, b < effAddr m s ∨ effAddr m s + 2 < b → t.mem.byteAt b = s.mem.byteAt b) ∧
    (Config.memSize - 3 < effAddr m s → ∀ b : Nat, t.mem.byteAt b = s.mem.byteAt b)

/-- What an instruction without a handler leaves unchanged: everything but the fault record (43_table_only.md). -/
def Obligations.UnhandledInstructionsFrame : Prop :=
  ∀ (i : Instr) (s t : State), hasHandler i.opcode = false → exec i s = .next t →
    t.a = s.a ∧ t.x = s.x ∧ t.l = s.l ∧ t.pc = s.pc ∧ t.sw = s.sw ∧ t.swEnc = s.swEnc ∧
    ∀ b : Nat, t.mem.byteAt b = s.mem.byteAt b

/-- Over all instructions and all words: what a step can change, and by which instruction. X and L never; A only by LDA,
ADD, SUB; SW only by COMP, to one of its sentinels; memory only by STA (10_state.md R9, R14; 20_memory.md R28). -/
def Obligations.StepWritesEachRegisterOnlyByItsInstructions : Prop :=
  ∀ (s t : State) (w : Word), s.fetches w → step s = .next t →
    t.x = s.x ∧ t.l = s.l ∧
    (t.a ≠ s.a → ∃ m : Operand, decodeWord w = .lda m ∨ decodeWord w = .add m ∨ decodeWord w = .sub m) ∧
    (t.sw ≠ s.sw → (∃ m : Operand, decodeWord w = .comp m) ∧
      (t.sw = s.swEnc.swLt ∨ t.sw = s.swEnc.swEq ∨ t.sw = s.swEnc.swGt)) ∧
    (∀ b : Nat, t.mem.byteAt b ≠ s.mem.byteAt b → ∃ m : Operand, decodeWord w = .sta m ∧ effAddr m s ≤ b ∧
      b ≤ effAddr m s + 2)

/-- Which instructions read each register in their execute phase: L and PC none; X only those with a handler whose x bit is
1; SW only JEQ; A only STA, ADD, SUB and COMP. Any other instruction, given another value there, answers the same next
state, that register included where it writes it, and keeps the other value where it does not (10_state.md R9, which the
spec derives). -/
def Obligations.UnreadRegistersDoNotMatter : Prop :=
  ∀ (i : Instr) (s t : State) (v : Word), exec i s = .next t →
    exec i { s with l := v } = .next { t with l := v } ∧
    ((i.operand.x = false ∨ hasHandler i.opcode = false) → exec i { s with x := v } = .next { t with x := v }) ∧
    (∃ u : State, exec i { s with pc := v } = .next u ∧
      (u = { t with pc := v } ∨ (u = t ∧ ∃ m : Operand, i = .j m ∨ i = .jeq m))) ∧
    ((∀ m : Operand, i ≠ .jeq m) →
      ∃ u : State, exec i { s with sw := v } = .next u ∧
        (u = { t with sw := v } ∨ (u = t ∧ ∃ m : Operand, i = .comp m))) ∧
    ((∀ m : Operand, i ≠ .sta m ∧ i ≠ .add m ∧ i ≠ .sub m ∧ i ≠ .comp m) →
      ∃ u : State, exec i { s with a := v } = .next u ∧
        (u = { t with a := v } ∨ (u = t ∧ ∃ m : Operand, i = .lda m)))

/-! ### Faults -/

/-- The state each fault of a step leaves: a fetch fault leaves everything, any other leaves everything but the PC
advance; the fault is recorded (60_exceptions.md R94). -/
def Obligations.FaultLeavesTheExactState : Prop :=
  ∀ (s t : State) (f : Fault), s.fault = none → step s = .next t → t.fault = some f →
    (Config.memSize - 3 < s.pc.toNat → t = { s with fault := some f }) ∧
    (s.pc.toNat ≤ Config.memSize - 3 → t = { s with pc := s.pc + 3#24, fault := some f })

/-- Which fault a step raises, and what it records, by the phase that fails first (60_exceptions.md R87, R88, R96). -/
def Obligations.StepFaultHasItsCause : Prop :=
  ∀ (s t : State) (f : Fault), s.fault = none → step s = .next t → t.fault = some f →
    (Config.memSize - 3 < s.pc.toNat → f = .outOfBounds s.pc.toNat .word .fetch) ∧
    (∀ w : Word, s.fetches w →
      (hasHandler (w.extractLsb' 16 8) = false ∧ f = .unimplementedOpcode (w.extractLsb' 16 8)) ∨
      (∃ m : Operand, Config.memSize - 3 < effAddr m s ∧
        ((decodeWord w ∈ [Instr.lda m, .add m, .sub m, .comp m] ∧ f = .outOfBounds (effAddr m s) .word .dataRead) ∨
         (decodeWord w = .sta m ∧ f = .outOfBounds (effAddr m s) .word .dataWrite))))

/-- A recorded fault ends the run: no step is taken from it, every run stops at it, only `reset()` clears it, and no run
that completes ends in a faulted state (60_exceptions.md R95, the spec's own decision D10). The model's
choices in it: that a step from it answers the recorded fault is log 1, that every run of it, `run(0)` included, answers
faulted is log 12, that the host's other calls are turned away is log 5, from R98. -/
def Obligations.RecordedFaultEndsTheRun : Prop :=
  (∀ (s : State) (f : Fault), s.fault = some f →
    step s = .fault f ∧ (∀ n : Nat, run n s = .faulted f s) ∧
    (∀ (h : HostAction) (t : State), h ≠ .reset → h.apply s ≠ .done t) ∧
    (∀ t : State, HostAction.reset.apply s = .done t → t.fault = none)) ∧
  (∀ (n : Nat) (s t : State), run n s = .completed t → t.fault = none)

/-! ### Invariants -/

/-- The machine as created meets the invariant, for every admitted encoding of the sentinels
(70_reset_and_hazards.md R106). -/
def Obligations.CreatedMachineMeetsTheInvariant : Prop :=
  (∀ enc : SwEnc, enc.distinct = true → (State.created enc).Inv) ∧ State.reset.Inv

/-- Every step from every state that meets the invariant gives a state that meets it. -/
def Obligations.StepKeepsTheInvariant : Prop :=
  ∀ s t : State, s.Inv → step s = .next t → t.Inv

/-- Every host call that changes the machine keeps the invariant too. -/
def Obligations.HostCallKeepsTheInvariant : Prop :=
  ∀ (h : HostAction) (s t : State), s.Inv → h.apply s = .done t → t.Inv

/-- Every state that steps and host calls can bring a machine to meets the invariant and keeps its encoding of the
sentinels, whichever admitted encoding it was created with (70_reset_and_hazards.md R106, R113). That no step and no host
call writes the encoding is the model's choice, log 2. -/
def Obligations.ReachableStatesMeetTheInvariant : Prop :=
  ∀ (enc : SwEnc) (s : State), enc.distinct = true → Reachable enc s → s.Inv ∧ s.swEnc = enc

/-! ### Reset, launch and runs -/

/-- `reset()` on any machine, faulted or not: every register and byte 0, the fault record empty
(70_reset_and_hazards.md R107 and D10; that the encoding is kept is log 2). -/
def Obligations.ResetZeroesRegistersAndMemory : Prop :=
  ∀ (s t : State), HostAction.reset.apply s = .done t →
    (∀ n : RegName, t.reg n = 0#24) ∧ (∀ a : Nat, t.mem.byteAt a = 0#8) ∧ t.fault = none ∧ t = State.created s.swEnc

/-- The first step after creation with nothing loaded runs the word 0 at address 0, LDA 0, for every encoding of the
sentinels (70_reset_and_hazards.md R108). -/
def Obligations.FirstStepAfterResetIsLdaZero : Prop :=
  ∀ enc : SwEnc, (State.created enc).fetches 0x000000#24 ∧ decodeWord 0x000000#24 = .lda ⟨false, 0#15⟩ ∧
    step (State.created enc) = .next { State.created enc with pc := 3#24 }

/-- `load_program`: the words at consecutive addresses, `PC` at the start address, nothing else changed; any other call
is no launch (70_reset_and_hazards.md R109, R110). D14 to D16 are the spec's own decisions; that a
faulted machine admits no launch is log 5, from 60_exceptions.md R98. -/
def Obligations.LoadProgramWritesTheImageAndSetsPc : Prop :=
  ∀ (words : List Int) (start : Int) (s : State), s.fault = none →
    (((∀ w ∈ words, 0 ≤ w ∧ w ≤ 0xFFFFFF) ∧ 0 ≤ start ∧ start + 3 * words.length ≤ 32768) →
      ∃ t : State, loadProgram words start s = .done t ∧
        (∀ (i : Nat) (w : Int), words[i]? = some w → t.mem.wordAt (start.toNat + 3 * i) = BitVec.ofInt 24 w) ∧
        (∀ b : Nat, b < start.toNat ∨ start.toNat + 3 * words.length ≤ b → t.mem.byteAt b = s.mem.byteAt b) ∧
        t = { s with mem := t.mem, pc := BitVec.ofInt 24 start }) ∧
    (¬((∀ w ∈ words, 0 ≤ w ∧ w ≤ 0xFFFFFF) ∧ 0 ≤ start ∧ start + 3 * words.length ≤ 32768) →
      loadProgram words start s = .notAdmitted)

/-- `run(N)` is N sequential steps that stop at once at a fault; `run(0)` changes nothing; a run of `m + n` steps is a run
of `m` and then, if it completed, one of `n` (70_reset_and_hazards.md R111, D17; log 12). -/
def Obligations.RunIsSequentialSteps : Prop :=
  (∀ s : State, s.fault = none → run 0 s = .completed s) ∧
  (∀ (n : Nat) (s t : State), s.fault = none → step s = .next t →
    (t.fault = none → run (n + 1) s = run n t) ∧ (∀ f : Fault, t.fault = some f → run (n + 1) s = .faulted f t)) ∧
  (∀ (m n : Nat) (s t : State), run m s = .completed t → run (m + n) s = run n t) ∧
  (∀ (m n : Nat) (s t : State) (f : Fault), run m s = .faulted f t → run (m + n) s = .faulted f t)

/-- The idle loop: `J p` at address `p` completes every budget and leaves the whole state as it was
(42_jumps.md R63; 60_exceptions.md R105; 70_reset_and_hazards.md R112). -/
def Obligations.IdleLoopCompletesEveryBudget : Prop :=
  ∀ (s : State) (n : Nat), s.fetches (0x3C0000#24 + s.pc) → run n s = .completed s

/-- The word that `withFetchWord` places is what the next step decodes and runs (log 9); how `w` numbers the bits of the
word, there and in `decodeTableWord`, is log 8. Both are the model's choices. -/
def Obligations.PlacedWordIsRunByTheNextStep : Prop :=
  ∀ (s : State) (w : Nat), s.fault = none → s.pc.toNat ≤ Config.memSize - 3 → w < 2 ^ 24 →
    decodeTableWord 24 w = some (decodeWord (BitVec.ofNat 24 w)) ∧
    step (s.withFetchWord 24 w) =
      exec (decodeWord (BitVec.ofNat 24 w)) { s.withFetchWord 24 w with pc := s.pc + 3#24 } ∧
    (∀ b : Nat, b < s.pc.toNat ∨ s.pc.toNat + 2 < b → (s.withFetchWord 24 w).mem.byteAt b = s.mem.byteAt b)
end

