-- ==== Sys2Proof/Laws/Decode.lean ====
section
/-! SUPPORT. Words, bytes and fields as numbers; a word is the word of its fields, and a field of a word is that field. -/

namespace Sys2Proof

theorem wordOfBytes_toNat (b0 b1 b2 : Byte) :
    (wordOfBytes b0 b1 b2).toNat = b0.toNat * 65536 + b1.toNat * 256 + b2.toNat := by
  have h0 := b0.isLt; have h1 := b1.isLt; have h2 := b2.isLt
  simp only [wordOfBytes, BitVec.toNat_ofNat]; omega

theorem highByte_toNat (w : Word) : (highByte w).toNat = w.toNat / 65536 := by
  have h := w.isLt
  simp only [highByte, BitVec.extractLsb'_toNat, Nat.shiftRight_eq_div_pow]; omega

theorem midByte_toNat (w : Word) : (midByte w).toNat = w.toNat / 256 % 256 := by
  simp [midByte, BitVec.extractLsb'_toNat, Nat.shiftRight_eq_div_pow]

theorem lowByte_toNat (w : Word) : (lowByte w).toNat = w.toNat % 256 := by
  simp [lowByte, BitVec.extractLsb'_toNat]

/-- Splitting a word into its bytes and joining them gives it back. -/
@[simp] theorem wordOfBytes_bytes (w : Word) : wordOfBytes (highByte w) (midByte w) (lowByte w) = w := by
  apply BitVec.eq_of_toNat_eq
  rw [wordOfBytes_toNat, highByte_toNat, midByte_toNat, lowByte_toNat]; omega

@[simp] theorem highByte_wordOfBytes (b0 b1 b2 : Byte) : highByte (wordOfBytes b0 b1 b2) = b0 := by
  have h1 := b1.isLt; have h2 := b2.isLt
  apply BitVec.eq_of_toNat_eq
  rw [highByte_toNat, wordOfBytes_toNat]; omega

@[simp] theorem midByte_wordOfBytes (b0 b1 b2 : Byte) : midByte (wordOfBytes b0 b1 b2) = b1 := by
  have h1 := b1.isLt; have h2 := b2.isLt
  apply BitVec.eq_of_toNat_eq
  rw [midByte_toNat, wordOfBytes_toNat]; omega

@[simp] theorem lowByte_wordOfBytes (b0 b1 b2 : Byte) : lowByte (wordOfBytes b0 b1 b2) = b2 := by
  have h2 := b2.isLt
  apply BitVec.eq_of_toNat_eq
  rw [lowByte_toNat, wordOfBytes_toNat]; omega

/-! ### Fields -/

theorem fieldsOf_opcode_toNat (w : Word) : (fieldsOf w).opcode.toNat = w.toNat / 65536 := highByte_toNat w

theorem fieldsOf_x (w : Word) : (fieldsOf w).operand.x = decide (w.toNat / 32768 % 2 = 1) := by
  simp [fieldsOf, BitVec.getLsbD, Nat.testBit_eq_decide_div_mod_eq]

theorem fieldsOf_address_toNat (w : Word) : (fieldsOf w).operand.address.toNat = w.toNat % 32768 := by
  simp [fieldsOf, BitVec.extractLsb'_toNat]

theorem wordOfFields_toNat (f : Fields) :
    (wordOfFields f).toNat =
      f.opcode.toNat * 65536 + (if f.operand.x then 32768 else 0) + f.operand.address.toNat := by
  have h0 := f.opcode.isLt; have h1 := f.operand.address.isLt
  simp only [wordOfFields, BitVec.toNat_ofNat]; split <;> omega

/-- No bit of a word is dropped by its three fields (30_encoding.md R37). -/
@[simp] theorem wordOfFields_fieldsOf (w : Word) : wordOfFields (fieldsOf w) = w := by
  apply BitVec.eq_of_toNat_eq
  rw [wordOfFields_toNat, fieldsOf_opcode_toNat, fieldsOf_x, fieldsOf_address_toNat]
  simp only [decide_eq_true_eq]; split <;> omega

/-- The fields of a word made of three fields are those fields. -/
@[simp] theorem fieldsOf_wordOfFields (f : Fields) : fieldsOf (wordOfFields f) = f := by
  have h0 := f.opcode.isLt; have h1 := f.operand.address.isLt
  have ho : (fieldsOf (wordOfFields f)).opcode = f.opcode := by
    apply BitVec.eq_of_toNat_eq
    rw [fieldsOf_opcode_toNat, wordOfFields_toNat]; split <;> omega
  have hx : (fieldsOf (wordOfFields f)).operand.x = f.operand.x := by
    rw [fieldsOf_x, wordOfFields_toNat]
    cases f.operand.x <;> simp <;> omega
  have ha : (fieldsOf (wordOfFields f)).operand.address = f.operand.address := by
    apply BitVec.eq_of_toNat_eq
    rw [fieldsOf_address_toNat, wordOfFields_toNat]; split <;> omega
  obtain ⟨op, x, a⟩ := f
  generalize fieldsOf (wordOfFields ⟨op, x, a⟩) = g at ho hx ha
  obtain ⟨op', x', a'⟩ := g
  simp_all

/-! ### Opcode bytes -/

theorem fieldsOf_opcode (w : Word) : (fieldsOf w).opcode = highByte w := rfl

@[simp] theorem instrOf_operand (f : Fields) : (instrOf f).operand = f.operand := by
  unfold instrOf; split <;> rfl

@[simp] theorem instrOf_opcode (f : Fields) : (instrOf f).opcode = f.opcode := by
  unfold instrOf; split <;> simp_all [Instr.opcode]

/-- An opcode byte no mnemonic names gives `unassigned` (43_table_only.md R85). -/
theorem instrOf_of_unassigned {f : Fields} (h : f.opcode ∉ assignedOpcodes) :
    instrOf f = .unassigned f.opcode f.operand := by
  have ho := instrOf_opcode f
  have hm := instrOf_operand f
  cases hi : instrOf f with
  | unassigned op m => rw [hi] at ho hm; cases ho; cases hm; rfl
  | _ => rw [hi] at ho; rw [← ho] at h; exact absurd h (by simp [assignedOpcodes, Instr.opcode])

/-- The decoder's `unassigned` carries a byte no mnemonic names. -/
theorem decodeWord_wellFormed (w : Word) : (decodeWord w).wellFormed = true := by
  by_cases h : (fieldsOf w).opcode ∈ assignedOpcodes
  · unfold decodeWord
    generalize fieldsOf w = f at h
    obtain ⟨op, m⟩ := f
    simp only [assignedOpcodes, List.cons_append, List.nil_append, List.mem_cons, List.not_mem_nil, or_false] at h
    rcases h with rfl | rfl | rfl | rfl | rfl | rfl | rfl | rfl | rfl | rfl | rfl | rfl | rfl | rfl | rfl | rfl | rfl |
      rfl | rfl | rfl | rfl | rfl | rfl | rfl | rfl | rfl <;> rfl
  · rw [decodeWord, instrOf_of_unassigned h]
    simpa [Instr.wellFormed] using h

/-- What the decoder reads is fixed by the opcode byte and the operand. -/
theorem decodeWord_opcode (w : Word) : (decodeWord w).opcode = highByte w := by
  simp [decodeWord, fieldsOf_opcode]

theorem decodeWord_operand (w : Word) : (decodeWord w).operand = (fieldsOf w).operand := by
  simp [decodeWord]

/-- The decoder on three bytes reads their word. -/
@[simp] theorem decode_cons (b0 b1 b2 : Byte) (rest : List Byte) :
    decode (b0 :: b1 :: b2 :: rest) = .ok (decodeWord (wordOfBytes b0 b1 b2), rest) := rfl

end Sys2Proof
end

