-- ==== Sys2Proof/Laws/Memory.lean ====
section
/-! SUPPORT. The memory list: read after write, and every memory operation keeps the canonical form. -/

namespace Sys2Proof.Machine

/-! ### Read after write, for every list -/

@[simp] theorem byteAt_nil (a : Nat) : Memory.byteAt [] a = Config.unlistedByte := rfl

theorem byteAt_erase (m : Memory) (a b : Nat) :
    (m.erase a).byteAt b = if b = a then Config.unlistedByte else m.byteAt b := by
  induction m with
  | nil => simp [Memory.erase]
  | cons c m ih =>
    obtain ⟨k, v⟩ := c
    by_cases h : a = k
    · subst h; simp only [Memory.erase, Memory.byteAt, if_true, ih]; split <;> rfl
    · simp only [Memory.erase, if_neg h, Memory.byteAt, ih]
      by_cases hb : b = k
      · subst hb; simp [Ne.symm h]
      · simp [hb]

theorem byteAt_insert_erase (m : Memory) (a b : Nat) (v : Byte) :
    ((m.erase a).insert a v).byteAt b = if b = a then v else m.byteAt b := by
  induction m with
  | nil => simp [Memory.erase, Memory.insert, Memory.byteAt]
  | cons c m ih =>
    obtain ⟨k, w⟩ := c
    by_cases h : a = k
    · subst h; simp only [Memory.erase, Memory.byteAt, if_true, ih]; split <;> rfl
    · simp only [Memory.erase, if_neg h, Memory.insert]
      split
      · simp only [Memory.byteAt, byteAt_erase]
        by_cases hb : b = a
        · simp [hb]
        · simp [hb]
      · simp only [Memory.byteAt, ih]
        by_cases hb : b = k
        · subst hb; simp [Ne.symm h]
        · simp [hb]

/-- A byte write changes that byte and no other (20_memory.md R22). -/
theorem byteAt_setByte (m : Memory) (a b : Nat) (v : Byte) :
    (m.setByte a v).byteAt b = if b = a then v else m.byteAt b := by
  unfold Memory.setByte
  split
  · next h => rw [byteAt_erase, h]
  · exact byteAt_insert_erase m a b v

/-- A word write sets its three bytes and no other (20_memory.md R24). -/
theorem byteAt_setWord (m : Memory) (a b : Nat) (w : Word) :
    (m.setWord a w).byteAt b =
      if b = a then highByte w else if b = a + 1 then midByte w else if b = a + 2 then lowByte w else m.byteAt b := by
  unfold Memory.setWord
  simp only [byteAt_setByte]
  by_cases h0 : b = a
  · simp [h0]
  · by_cases h1 : b = a + 1
    · simp [h1]
    · simp [h0, h1]

theorem byteAt_setWord_of_outside (m : Memory) (a b : Nat) (w : Word) (h : b < a ∨ a + 2 < b) :
    (m.setWord a w).byteAt b = m.byteAt b := by
  rw [byteAt_setWord, if_neg (by omega), if_neg (by omega), if_neg (by omega)]

/-- The word written is the word read (20_memory.md R23, R24). -/
@[simp] theorem wordAt_setWord (m : Memory) (a : Nat) (w : Word) : (m.setWord a w).wordAt a = w := by
  simp [Memory.wordAt, byteAt_setWord]

theorem wordAt_setWord_of_apart (m : Memory) (a b : Nat) (w : Word) (h : b + 2 < a ∨ a + 2 < b) :
    (m.setWord a w).wordAt b = m.wordAt b := by
  unfold Memory.wordAt
  rw [byteAt_setWord_of_outside _ _ _ _ (by omega), byteAt_setWord_of_outside _ _ _ _ (by omega),
    byteAt_setWord_of_outside _ _ _ _ (by omega)]

/-! ### The canonical form -/

theorem canonicalFrom_cons {lo k : Nat} {v : Byte} {m : Memory} :
    Memory.canonicalFrom lo ((k, v) :: m) = true ↔
      lo ≤ k ∧ k < Config.memSize ∧ v ≠ Config.unlistedByte ∧ Memory.canonicalFrom (k + 1) m = true := by
  simp [Memory.canonicalFrom, and_assoc]

theorem canonicalFrom_of_le {lo hi : Nat} (h : lo ≤ hi) {m : Memory} (hm : Memory.canonicalFrom hi m = true) :
    Memory.canonicalFrom lo m = true := by
  cases m with
  | nil => rfl
  | cons c m =>
    obtain ⟨k, v⟩ := c
    rw [canonicalFrom_cons] at hm ⊢
    exact ⟨h.trans hm.1, hm.2⟩

theorem canonicalFrom_erase (m : Memory) (a : Nat) (lo : Nat) (h : Memory.canonicalFrom lo m = true) :
    Memory.canonicalFrom lo (m.erase a) = true := by
  induction m generalizing lo with
  | nil => rfl
  | cons c m ih =>
    obtain ⟨k, v⟩ := c
    rw [canonicalFrom_cons] at h
    unfold Memory.erase
    split
    · exact canonicalFrom_of_le (by omega) (ih _ h.2.2.2)
    · exact canonicalFrom_cons.mpr ⟨h.1, h.2.1, h.2.2.1, ih _ h.2.2.2⟩

theorem canonicalFrom_insert_erase (m : Memory) (a : Nat) (v : Byte) (hv : v ≠ Config.unlistedByte)
    (ha : a < Config.memSize) (lo : Nat) (hlo : lo ≤ a) (h : Memory.canonicalFrom lo m = true) :
    Memory.canonicalFrom lo ((m.erase a).insert a v) = true := by
  induction m generalizing lo with
  | nil => exact canonicalFrom_cons.mpr ⟨hlo, ha, hv, rfl⟩
  | cons c m ih =>
    obtain ⟨k, w⟩ := c
    rw [canonicalFrom_cons] at h
    obtain ⟨h1, h2, h3, h4⟩ := h
    unfold Memory.erase
    split
    · exact ih _ hlo (canonicalFrom_of_le (by omega) h4)
    · next hne =>
      unfold Memory.insert
      split
      · next hlt =>
        exact canonicalFrom_cons.mpr ⟨hlo, ha, hv, canonicalFrom_cons.mpr
          ⟨hlt, h2, h3, canonicalFrom_erase m a _ h4⟩⟩
      · exact canonicalFrom_cons.mpr ⟨h1, h2, h3, ih _ (by omega) h4⟩

/-- A byte write inside memory keeps the canonical form. -/
theorem wf_setByte {m : Memory} (h : m.wf = true) {a : Nat} (ha : a < Config.memSize) (v : Byte) :
    (m.setByte a v).wf = true := by
  unfold Memory.wf at *
  unfold Memory.setByte
  split
  · exact canonicalFrom_erase m a 0 h
  · next hv => exact canonicalFrom_insert_erase m a v hv ha 0 (Nat.zero_le a) h

/-- A word write whose span is inside memory keeps the canonical form. -/
theorem wf_setWord {m : Memory} (h : m.wf = true) {a : Nat} (ha : a + 2 < Config.memSize) (w : Word) :
    (m.setWord a w).wf = true :=
  wf_setByte (wf_setByte (wf_setByte h (by omega) _) (by omega) _) ha _

@[simp] theorem wf_nil : Memory.wf [] = true := rfl

end Sys2Proof.Machine
end

