-- ==== Sys2Proof/Laws/State.lean ====
section
/-! SUPPORT. One lemma per field per update: what a register write, a memory write and a recorded fault leave in State. -/

namespace Sys2Proof.Machine

/-! ### Masks -/

@[simp] theorem mask24_word (w : Word) : mask24 (w.toNat : Int) = w := by simp [mask24]

theorem mask24_nat (n : Nat) : mask24 (n : Int) = BitVec.ofNat 24 n := by simp [mask24]

theorem mask24_add (a b : Word) : mask24 ((a.toNat : Int) + b.toNat) = a + b := by
  simp [mask24, BitVec.ofInt_add]

theorem mask24_sub (a b : Word) : mask24 ((a.toNat : Int) - b.toNat) = a - b := by
  have ha := a.isLt; have hb := b.isLt
  apply BitVec.eq_of_toNat_eq
  rw [mask24, BitVec.toNat_ofInt, BitVec.toNat_sub]; omega

theorem mask24_toNat (v : Int) : ((mask24 v).toNat : Int) = v % 16777216 := by
  simp [mask24, BitVec.toNat_ofInt]; omega

theorem mask8_toNat (v : Int) : ((mask8 v).toNat : Int) = v % 256 := by
  simp [mask8, BitVec.toNat_ofInt]; omega

/-! ### Register reads by name -/

@[simp] theorem reg_A (s : State) : s.reg .A = s.a := rfl
@[simp] theorem reg_X (s : State) : s.reg .X = s.x := rfl
@[simp] theorem reg_L (s : State) : s.reg .L = s.l := rfl
@[simp] theorem reg_PC (s : State) : s.reg .PC = s.pc := rfl
@[simp] theorem reg_SW (s : State) : s.reg .SW = s.sw := rfl

/-! ### Register writes, as updates of one field -/

@[simp] theorem setReg_A (s : State) (v : Int) : s.setReg .A v = { s with a := mask24 v } := rfl
@[simp] theorem setReg_X (s : State) (v : Int) : s.setReg .X v = { s with x := mask24 v } := rfl
@[simp] theorem setReg_L (s : State) (v : Int) : s.setReg .L v = { s with l := mask24 v } := rfl
@[simp] theorem setReg_PC (s : State) (v : Int) : s.setReg .PC v = { s with pc := mask24 v } := rfl
@[simp] theorem setReg_SW (s : State) (v : Int) : s.setReg .SW v = { s with sw := mask24 v } := rfl

/-! ### Register writes and the other fields, for any register -/

@[simp] theorem setReg_mem (s : State) (n : RegName) (v : Int) : (s.setReg n v).mem = s.mem := by cases n <;> rfl
@[simp] theorem setReg_fault (s : State) (n : RegName) (v : Int) : (s.setReg n v).fault = s.fault := by cases n <;> rfl
@[simp] theorem setReg_swEnc (s : State) (n : RegName) (v : Int) : (s.setReg n v).swEnc = s.swEnc := by cases n <;> rfl
@[simp] theorem setReg_a_of_X (s : State) (v : Int) : (s.setReg .X v).a = s.a := rfl
@[simp] theorem setReg_a_of_L (s : State) (v : Int) : (s.setReg .L v).a = s.a := rfl
@[simp] theorem setReg_a_of_PC (s : State) (v : Int) : (s.setReg .PC v).a = s.a := rfl
@[simp] theorem setReg_a_of_SW (s : State) (v : Int) : (s.setReg .SW v).a = s.a := rfl
@[simp] theorem setReg_x_of_A (s : State) (v : Int) : (s.setReg .A v).x = s.x := rfl
@[simp] theorem setReg_x_of_L (s : State) (v : Int) : (s.setReg .L v).x = s.x := rfl
@[simp] theorem setReg_x_of_PC (s : State) (v : Int) : (s.setReg .PC v).x = s.x := rfl
@[simp] theorem setReg_x_of_SW (s : State) (v : Int) : (s.setReg .SW v).x = s.x := rfl
@[simp] theorem setReg_l_of_A (s : State) (v : Int) : (s.setReg .A v).l = s.l := rfl
@[simp] theorem setReg_l_of_X (s : State) (v : Int) : (s.setReg .X v).l = s.l := rfl
@[simp] theorem setReg_l_of_PC (s : State) (v : Int) : (s.setReg .PC v).l = s.l := rfl
@[simp] theorem setReg_l_of_SW (s : State) (v : Int) : (s.setReg .SW v).l = s.l := rfl
@[simp] theorem setReg_pc_of_A (s : State) (v : Int) : (s.setReg .A v).pc = s.pc := rfl
@[simp] theorem setReg_pc_of_X (s : State) (v : Int) : (s.setReg .X v).pc = s.pc := rfl
@[simp] theorem setReg_pc_of_L (s : State) (v : Int) : (s.setReg .L v).pc = s.pc := rfl
@[simp] theorem setReg_pc_of_SW (s : State) (v : Int) : (s.setReg .SW v).pc = s.pc := rfl
@[simp] theorem setReg_sw_of_A (s : State) (v : Int) : (s.setReg .A v).sw = s.sw := rfl
@[simp] theorem setReg_sw_of_X (s : State) (v : Int) : (s.setReg .X v).sw = s.sw := rfl
@[simp] theorem setReg_sw_of_L (s : State) (v : Int) : (s.setReg .L v).sw = s.sw := rfl
@[simp] theorem setReg_sw_of_PC (s : State) (v : Int) : (s.setReg .PC v).sw = s.sw := rfl

/-! ### Raising a fault and advancing the PC -/

@[simp] theorem raise_eq (f : Fault) (s : State) : raise f s = .next { s with fault := some f } := rfl

@[simp] theorem raiseUnimplemented_eq (op : Byte) (s : State) :
    raiseUnimplemented op s = .next { s with fault := some (.unimplementedOpcode op) } := rfl

@[simp] theorem stoppedBy_eq (s : State) : stoppedBy s = s.fault := rfl

@[simp] theorem advancePc_eq (s : State) : advancePc s = { s with pc := s.pc + 3#24 } := by
  have h := mask24_add s.pc 3#24
  simpa [advancePc, Config.wordBytes] using h

end Sys2Proof.Machine
end

