-- ==== Sys2Proof/Laws/Ops.lean ====
section
/-! SUPPORT. One lemma per shared operation and per instruction: everything it can do. -/

namespace Sys2Proof.Machine

/-! ### Bounds -/

theorem inBounds_word (a : Int) : inBounds a .word = true ↔ 0 ≤ a ∧ a ≤ 32765 := by
  unfold inBounds; rw [decide_eq_true_eq]; simp only [AccessWidth.bytes, Config.memSize, Config.wordBytes]; omega

theorem inBounds_byte (a : Int) : inBounds a .byte = true ↔ 0 ≤ a ∧ a ≤ 32767 := by
  unfold inBounds; rw [decide_eq_true_eq]; simp only [AccessWidth.bytes, Config.memSize]; omega

/-- The last valid word address, 0x7FFD (20_memory.md R23). -/
@[simp] theorem lastWordAddress : Config.memSize - 3 = 32765 := rfl

/-! ### The operand accesses -/

/-- The sum is a natural number of at most 25 bits (30_encoding.md R43). -/
theorem effAddr_le (m : Operand) (s : State) : effAddr m s ≤ 0x1007FFE := by
  have h0 := m.address.isLt; have h1 := s.x.isLt
  unfold effAddr; simp only [reg_X]; split <;> omega

/-! The effective address reads `X` and nothing else (10_state.md R9). -/

@[simp] theorem effAddr_of_a (m : Operand) (s : State) (v : Word) : effAddr m { s with a := v } = effAddr m s := rfl
@[simp] theorem effAddr_of_l (m : Operand) (s : State) (v : Word) : effAddr m { s with l := v } = effAddr m s := rfl
@[simp] theorem effAddr_of_pc (m : Operand) (s : State) (v : Word) : effAddr m { s with pc := v } = effAddr m s := rfl
@[simp] theorem effAddr_of_sw (m : Operand) (s : State) (v : Word) : effAddr m { s with sw := v } = effAddr m s := rfl
@[simp] theorem effAddr_of_mem (m : Operand) (s : State) (v : Memory) : effAddr m { s with mem := v } = effAddr m s := rfl
@[simp] theorem effAddr_of_fault (m : Operand) (s : State) (v : Option Fault) :
    effAddr m { s with fault := v } = effAddr m s := rfl

theorem withOperandWord_ok {m : Operand} {s : State} (use : Word → State) (h : effAddr m s ≤ 32765) :
    withOperandWord m s use = .next (use (s.mem.wordAt (effAddr m s))) := by
  have hb : inBounds (effAddr m s) .word = true := (inBounds_word _).mpr ⟨by omega, by omega⟩
  simp [withOperandWord, memReadWord, hb]

theorem withOperandWord_out {m : Operand} {s : State} (use : Word → State) (h : 32765 < effAddr m s) :
    withOperandWord m s use = .next { s with fault := some (.outOfBounds (effAddr m s) .word .dataRead) } := by
  have hb : inBounds (effAddr m s) .word = false := by
    rw [Bool.eq_false_iff, Ne, inBounds_word]; omega
  simp [withOperandWord, memReadWord, hb]

theorem storeOperandWord_ok {m : Operand} {s : State} (v : Int) (h : effAddr m s ≤ 32765) :
    storeOperandWord m v s = .next { s with mem := s.mem.setWord (effAddr m s) (mask24 v) } := by
  have hb : inBounds (effAddr m s) .word = true := (inBounds_word _).mpr ⟨by omega, by omega⟩
  simp [storeOperandWord, memWriteWord, hb]

theorem storeOperandWord_out {m : Operand} {s : State} (v : Int) (h : 32765 < effAddr m s) :
    storeOperandWord m v s = .next { s with fault := some (.outOfBounds (effAddr m s) .word .dataWrite) } := by
  have hb : inBounds (effAddr m s) .word = false := by
    rw [Bool.eq_false_iff, Ne, inBounds_word]; omega
  simp [storeOperandWord, memWriteWord, hb]

/-! ### Fetch -/

theorem fetchWord_ok {s : State} (h : s.pc.toNat ≤ 32765) : fetchWord s = .ok (s.mem.wordAt s.pc.toNat) := by
  have hb : inBounds (s.pc.toNat : Int) .word = true := (inBounds_word _).mpr ⟨by omega, by omega⟩
  simp [fetchWord, memReadWord, hb]

theorem fetchWord_out {s : State} (h : 32765 < s.pc.toNat) :
    fetchWord s = .error (.outOfBounds s.pc.toNat .word .fetch) := by
  have hb : inBounds (s.pc.toNat : Int) .word = false := by
    rw [Bool.eq_false_iff, Ne, inBounds_word]; omega
  simp [fetchWord, memReadWord, hb]

/-! ### A step, by its phases -/

theorem step_of_fault {s : State} {f : Fault} (h : s.fault = some f) : step s = .fault f := by
  simp [step, h]

theorem step_of_fetch {s : State} (hf : s.fault = none) (h : s.pc.toNat ≤ 32765) :
    step s = exec (decodeWord (s.mem.wordAt s.pc.toNat)) { s with pc := s.pc + 3#24 } := by
  simp [step, hf, fetchWord_ok h]

theorem step_of_fetch_fault {s : State} (hf : s.fault = none) (h : 32765 < s.pc.toNat) :
    step s = .next { s with fault := some (.outOfBounds s.pc.toNat .word .fetch) } := by
  simp [step, hf, fetchWord_out h]

/-! ### The seven handlers -/

theorem execLda_ok {m : Operand} {s : State} (h : effAddr m s ≤ 32765) :
    exec (.lda m) s = .next { s with a := s.mem.wordAt (effAddr m s) } := by
  simp [exec, execLda, withOperandWord_ok _ h]

theorem execAdd_ok {m : Operand} {s : State} (h : effAddr m s ≤ 32765) :
    exec (.add m) s = .next { s with a := s.a + s.mem.wordAt (effAddr m s) } := by
  simp [exec, execAdd, withOperandWord_ok _ h, mask24_add]

theorem execSub_ok {m : Operand} {s : State} (h : effAddr m s ≤ 32765) :
    exec (.sub m) s = .next { s with a := s.a - s.mem.wordAt (effAddr m s) } := by
  simp [exec, execSub, withOperandWord_ok _ h, mask24_sub]

theorem execComp_ok {m : Operand} {s : State} (h : effAddr m s ≤ 32765) :
    exec (.comp m) s = .next { s with sw := compareSentinel s.swEnc s.a (s.mem.wordAt (effAddr m s)) } := by
  simp [exec, execComp, withOperandWord_ok _ h]

theorem execSta_ok {m : Operand} {s : State} (h : effAddr m s ≤ 32765) :
    exec (.sta m) s = .next { s with mem := s.mem.setWord (effAddr m s) s.a } := by
  simp [exec, execSta, storeOperandWord_ok _ h]

/-- The instructions that read a word of memory (20_memory.md R28). -/
def Instr.readsWord (i : Instr) (m : Operand) : Prop := i = .lda m ∨ i = .add m ∨ i = .sub m ∨ i = .comp m

theorem exec_read_out {i : Instr} {m : Operand} {s : State} (hi : Instr.readsWord i m) (h : 32765 < effAddr m s) :
    exec i s = .next { s with fault := some (.outOfBounds (effAddr m s) .word .dataRead) } := by
  obtain rfl | rfl | rfl | rfl := hi <;> exact withOperandWord_out _ h

theorem execSta_out {m : Operand} {s : State} (h : 32765 < effAddr m s) :
    exec (.sta m) s = .next { s with fault := some (.outOfBounds (effAddr m s) .word .dataWrite) } :=
  storeOperandWord_out _ h

theorem execJ_eq (m : Operand) (s : State) : exec (.j m) s = .next { s with pc := BitVec.ofNat 24 (effAddr m s) } := by
  simp [exec, execJ, mask24_nat]

theorem execJeq_taken {m : Operand} {s : State} (h : s.sw = s.swEnc.swEq) :
    exec (.jeq m) s = .next { s with pc := BitVec.ofNat 24 (effAddr m s) } := by
  simp [exec, execJeq, swIsEqual, h, mask24_nat]

theorem execJeq_not_taken {m : Operand} {s : State} (h : s.sw ≠ s.swEnc.swEq) : exec (.jeq m) s = .next s := by
  simp [exec, execJeq, swIsEqual, h]

/-- An instruction without a handler, whatever its operand (30_encoding.md R54; 43_table_only.md). -/
theorem exec_noHandler {i : Instr} {s : State} (h : hasHandler i.opcode = false) :
    exec i s = .next { s with fault := some (.unimplementedOpcode i.opcode) } := by
  cases i with
  | lda m => cases h
  | sta m => cases h
  | add m => cases h
  | sub m => cases h
  | comp m => cases h
  | jeq m => cases h
  | j m => cases h
  | _ => rfl

/-! ### What exec can do -/

/-- Everything an instruction can do to a state, over all of Instr (30_encoding.md R55, R56). -/
inductive Effect (s : State) : Instr → State → Prop where
  | lda (m : Operand) : effAddr m s ≤ 32765 → Effect s (.lda m) { s with a := s.mem.wordAt (effAddr m s) }
  | add (m : Operand) : effAddr m s ≤ 32765 → Effect s (.add m) { s with a := s.a + s.mem.wordAt (effAddr m s) }
  | sub (m : Operand) : effAddr m s ≤ 32765 → Effect s (.sub m) { s with a := s.a - s.mem.wordAt (effAddr m s) }
  | comp (m : Operand) : effAddr m s ≤ 32765 →
      Effect s (.comp m) { s with sw := compareSentinel s.swEnc s.a (s.mem.wordAt (effAddr m s)) }
  | sta (m : Operand) : effAddr m s ≤ 32765 → Effect s (.sta m) { s with mem := s.mem.setWord (effAddr m s) s.a }
  | j (m : Operand) : Effect s (.j m) { s with pc := BitVec.ofNat 24 (effAddr m s) }
  | jeqTaken (m : Operand) : s.sw = s.swEnc.swEq → Effect s (.jeq m) { s with pc := BitVec.ofNat 24 (effAddr m s) }
  | jeqNotTaken (m : Operand) : s.sw ≠ s.swEnc.swEq → Effect s (.jeq m) s
  | readFault (i : Instr) (m : Operand) : Instr.readsWord i m → 32765 < effAddr m s →
      Effect s i { s with fault := some (.outOfBounds (effAddr m s) .word .dataRead) }
  | writeFault (m : Operand) : 32765 < effAddr m s →
      Effect s (.sta m) { s with fault := some (.outOfBounds (effAddr m s) .word .dataWrite) }
  | noHandler (i : Instr) : hasHandler i.opcode = false →
      Effect s i { s with fault := some (.unimplementedOpcode i.opcode) }
  /-- A term no word decodes to: an `unassigned` whose byte has a handler (`decodeWord_unassigned`). -/
  | illFormed (op : Byte) (m : Operand) : hasHandler op = true →
      Effect s (.unassigned op m) { s with fault := some (.unimplementedOpcode op) }

/-- Every instruction answers a next state, and that state is one of its effects. -/
theorem exec_effect (i : Instr) (s : State) : ∃ t, exec i s = .next t ∧ Effect s i t := by
  cases i with
  | lda m =>
    obtain h | h := Nat.lt_or_ge 32765 (effAddr m s)
    · exact ⟨_, exec_read_out (.inl rfl) h, .readFault _ m (.inl rfl) h⟩
    · exact ⟨_, execLda_ok h, .lda m h⟩
  | add m =>
    obtain h | h := Nat.lt_or_ge 32765 (effAddr m s)
    · exact ⟨_, exec_read_out (.inr (.inl rfl)) h, .readFault _ m (.inr (.inl rfl)) h⟩
    · exact ⟨_, execAdd_ok h, .add m h⟩
  | sub m =>
    obtain h | h := Nat.lt_or_ge 32765 (effAddr m s)
    · exact ⟨_, exec_read_out (.inr (.inr (.inl rfl))) h, .readFault _ m (.inr (.inr (.inl rfl))) h⟩
    · exact ⟨_, execSub_ok h, .sub m h⟩
  | comp m =>
    obtain h | h := Nat.lt_or_ge 32765 (effAddr m s)
    · exact ⟨_, exec_read_out (.inr (.inr (.inr rfl))) h, .readFault _ m (.inr (.inr (.inr rfl))) h⟩
    · exact ⟨_, execComp_ok h, .comp m h⟩
  | sta m =>
    obtain h | h := Nat.lt_or_ge 32765 (effAddr m s)
    · exact ⟨_, execSta_out h, .writeFault m h⟩
    · exact ⟨_, execSta_ok h, .sta m h⟩
  | j m => exact ⟨_, execJ_eq m s, .j m⟩
  | jeq m =>
    by_cases h : s.sw = s.swEnc.swEq
    · exact ⟨_, execJeq_taken h, .jeqTaken m h⟩
    · exact ⟨_, execJeq_not_taken h, .jeqNotTaken m h⟩
  | unassigned op m =>
    cases h : hasHandler op
    · exact ⟨_, rfl, .noHandler _ h⟩
    · exact ⟨_, rfl, .illFormed op m h⟩
  | _ => exact ⟨_, rfl, .noHandler _ rfl⟩

/-- The same as an inversion: what exec answered is one of the instruction's effects. -/
theorem effect_of_exec {i : Instr} {s t : State} (h : exec i s = .next t) : Effect s i t := by
  obtain ⟨t', ht, he⟩ := exec_effect i s
  rw [ht] at h; cases h; exact he

/-- Everything a step that answers a next state did: its fetch failed, or it ran the decoded instruction on the state
whose PC had advanced (30_encoding.md R51). -/
theorem step_cases {s t : State} (h : step s = .next t) :
    s.fault = none ∧
      ((32765 < s.pc.toNat ∧ t = { s with fault := some (.outOfBounds s.pc.toNat .word .fetch) }) ∨
       (s.pc.toNat ≤ 32765 ∧
        ∃ i, decodeWord (s.mem.wordAt s.pc.toNat) = i ∧ Effect { s with pc := s.pc + 3#24 } i t)) := by
  have hf : s.fault = none := by
    cases hf : s.fault with
    | none => rfl
    | some f => rw [step_of_fault hf] at h; cases h
  refine ⟨hf, ?_⟩
  obtain hp | hp := Nat.lt_or_ge 32765 s.pc.toNat
  · rw [step_of_fetch_fault hf hp] at h; cases h; exact .inl ⟨hp, rfl⟩
  · rw [step_of_fetch hf hp] at h; exact .inr ⟨hp, _, rfl, effect_of_exec h⟩

/-- The opcodes with a handler (30_encoding.md R45). -/
theorem hasHandler_iff (op : Byte) :
    hasHandler op = true ↔
      op = 0x00#8 ∨ op = 0x0C#8 ∨ op = 0x18#8 ∨ op = 0x1C#8 ∨ op = 0x28#8 ∨ op = 0x30#8 ∨ op = 0x3C#8 := by
  simp [hasHandler, handlerOpcodes]

/-- The decoder never gives `unassigned` an opcode byte that has a handler (43_table_only.md R85). -/
theorem decodeWord_unassigned {w : Word} {op : Byte} {m : Operand} (h : decodeWord w = .unassigned op m) :
    hasHandler op = false := by
  have hw := decodeWord_wellFormed w
  rw [h] at hw
  rw [Bool.eq_false_iff, Ne, hasHandler_iff]
  rintro (rfl | rfl | rfl | rfl | rfl | rfl | rfl) <;> exact absurd hw (by simp [Instr.wellFormed, assignedOpcodes])

end Sys2Proof.Machine
end

