-- ==== Sys2Proof/Laws/PerInstr.lean ====
section
/-! SUPPORT. Laws stated per instruction: an instruction's word holds its opcode byte and its operand in their fields. -/

namespace Sys2Proof.Laws.EncodedFields

/-- The word of `i` has `i`'s opcode in bits 23..16 and its operand below (30_encoding.md R37, R50). -/
def Statement (i : Instr) : Prop := fieldsOf (encodeWord i) = ⟨i.opcode, i.operand⟩

theorem of_any (i : Instr) : Statement i := fieldsOf_wordOfFields ⟨i.opcode, i.operand⟩

theorem lda (m : Operand) : Statement (.lda m) := of_any _
theorem sta (m : Operand) : Statement (.sta m) := of_any _
theorem add (m : Operand) : Statement (.add m) := of_any _
theorem sub (m : Operand) : Statement (.sub m) := of_any _
theorem comp (m : Operand) : Statement (.comp m) := of_any _
theorem jeq (m : Operand) : Statement (.jeq m) := of_any _
theorem j (m : Operand) : Statement (.j m) := of_any _
theorem and (m : Operand) : Statement (.and m) := of_any _
theorem div (m : Operand) : Statement (.div m) := of_any _
theorem jgt (m : Operand) : Statement (.jgt m) := of_any _
theorem jlt (m : Operand) : Statement (.jlt m) := of_any _
theorem jsub (m : Operand) : Statement (.jsub m) := of_any _
theorem ldch (m : Operand) : Statement (.ldch m) := of_any _
theorem ldl (m : Operand) : Statement (.ldl m) := of_any _
theorem ldx (m : Operand) : Statement (.ldx m) := of_any _
theorem mul (m : Operand) : Statement (.mul m) := of_any _
theorem or (m : Operand) : Statement (.or m) := of_any _
theorem rd (m : Operand) : Statement (.rd m) := of_any _
theorem rsub (m : Operand) : Statement (.rsub m) := of_any _
theorem stch (m : Operand) : Statement (.stch m) := of_any _
theorem stl (m : Operand) : Statement (.stl m) := of_any _
theorem stsw (m : Operand) : Statement (.stsw m) := of_any _
theorem stx (m : Operand) : Statement (.stx m) := of_any _
theorem td (m : Operand) : Statement (.td m) := of_any _
theorem tix (m : Operand) : Statement (.tix m) := of_any _
theorem wd (m : Operand) : Statement (.wd m) := of_any _
theorem unassigned (op : Byte) (m : Operand) : Statement (.unassigned op m) := of_any _

end Sys2Proof.Laws.EncodedFields
end

