-- ==== Sys2Proof/Tests/Slice0.lean ====
section
/-! SUPPORT. Tests. Expected results come from spec/95_test_vectors.md (rows W and V, named beside each test) or from the
rule named; every `witness_` theorem shows concrete values that meet the hypotheses of the statement it is named after. -/

namespace Sys2Proof.Machine.Tests

/-! ### Helpers -/

/-- A machine just created with the reference sentinels, `PC` at `pc` and the word `w` there. -/
def at' (pc w : Word) : State := { State.reset with pc := pc, mem := Memory.setWord [] pc.toNat w }

/-- `s` with the word `w` at address `a`. -/
def withWord (a : Nat) (w : Word) (s : State) : State := { s with mem := s.mem.setWord a w }

/-- Whether `r` is the next state `t`. -/
def nextIs (r : StepResult) (t : State) : Bool :=
  match r with
  | .next u => decide (u = t)
  | .fault _ => false
  | .refused _ => false

theorem eq_next {r : StepResult} {t : State} (h : nextIs r t = true) : r = .next t := by
  cases r with
  | next u => simp only [nextIs, decide_eq_true_eq] at h; rw [h]
  | fault f => cases h
  | refused r => cases h

/-! ### WellFormed: each check refuses an ill-formed term -/

theorem test_unassigned_of_handled_opcode_is_ill_formed : (Instr.unassigned 0x18#8 ⟨false, 0#15⟩).wellFormed = false := by
  decide

theorem test_unassigned_of_table_only_opcode_is_ill_formed :
    (Instr.unassigned 0xE8#8 ⟨true, 0x7FFF#15⟩).wellFormed = false := by decide

theorem test_unassigned_of_unassigned_opcode_is_well_formed :
    (Instr.unassigned 0x01#8 ⟨false, 0x0200#15⟩).wellFormed = true := by decide

/-! ### Decoding: words written out from the encodings of 30_encoding.md R37 and opcode_table.json, bit by bit -/

/-- LDA, STA (40_load_store.md), with x = 1 and x = 0: opcode, x, address (W9, V17). -/
theorem test_decode_load_store :
    decodeWord 0b00000000_0_001000000000000#24 = .lda ⟨false, 0x1000#15⟩ ∧
    decodeWord 0b00001100_1_010000010000000#24 = .sta ⟨true, 0x2080#15⟩ := by decide

/-- ADD, SUB, COMP (41_arith_compare.md; V16). -/
theorem test_decode_arith_compare :
    decodeWord 0b00011000_0_111111111111111#24 = .add ⟨false, 0x7FFF#15⟩ ∧
    decodeWord 0b00011100_1_000000000000001#24 = .sub ⟨true, 0x0001#15⟩ ∧
    decodeWord 0b00101000_0_011000100000000#24 = .comp ⟨false, 0x3100#15⟩ := by decide

/-- J, JEQ (42_jumps.md; V15, V60). -/
theorem test_decode_jumps :
    decodeWord 0b00111100_1_000000000000000#24 = .j ⟨true, 0x0000#15⟩ ∧
    decodeWord 0b00110000_0_000010100000000#24 = .jeq ⟨false, 0x0500#15⟩ := by decide

/-- The table-only rows V67 to V76 of 95_test_vectors.md, AND to OR. -/
theorem test_decode_table_only_and_to_or :
    decodeWord 0x400200#24 = .and ⟨false, 0x0200#15⟩ ∧ decodeWord 0x240200#24 = .div ⟨false, 0x0200#15⟩ ∧
    decodeWord 0x340200#24 = .jgt ⟨false, 0x0200#15⟩ ∧ decodeWord 0x380200#24 = .jlt ⟨false, 0x0200#15⟩ ∧
    decodeWord 0x480200#24 = .jsub ⟨false, 0x0200#15⟩ ∧ decodeWord 0x500200#24 = .ldch ⟨false, 0x0200#15⟩ ∧
    decodeWord 0x080200#24 = .ldl ⟨false, 0x0200#15⟩ ∧ decodeWord 0x040200#24 = .ldx ⟨false, 0x0200#15⟩ ∧
    decodeWord 0x200200#24 = .mul ⟨false, 0x0200#15⟩ ∧ decodeWord 0x440200#24 = .or ⟨false, 0x0200#15⟩ := by decide

/-- The table-only rows V76 to V84, RD to WD. -/
theorem test_decode_table_only_rd_to_wd :
    decodeWord 0xD80200#24 = .rd ⟨false, 0x0200#15⟩ ∧ decodeWord 0x4C0200#24 = .rsub ⟨false, 0x0200#15⟩ ∧
    decodeWord 0x540200#24 = .stch ⟨false, 0x0200#15⟩ ∧ decodeWord 0x140200#24 = .stl ⟨false, 0x0200#15⟩ ∧
    decodeWord 0xE80200#24 = .stsw ⟨false, 0x0200#15⟩ ∧ decodeWord 0x100200#24 = .stx ⟨false, 0x0200#15⟩ ∧
    decodeWord 0xE00200#24 = .td ⟨false, 0x0200#15⟩ ∧ decodeWord 0x2C0200#24 = .tix ⟨false, 0x0200#15⟩ ∧
    decodeWord 0xDC0200#24 = .wd ⟨false, 0x0200#15⟩ := by decide

/-- V85, V14. -/
theorem test_decode_unassigned :
    decodeWord 0x010200#24 = .unassigned 0x01#8 ⟨false, 0x0200#15⟩ ∧
    decodeWord 0xFFFFFF#24 = .unassigned 0xFF#8 ⟨true, 0x7FFF#15⟩ := by decide

/-- Two bytes are no instruction (30_encoding.md R41). -/
theorem test_decode_too_few_bytes : decode [0x00#8, 0x10#8] = .error (.truncated 2) := by rfl

/-- V18 and its neighbour inside the range. -/
theorem test_host_decode_bounds :
    hostDecode 0x1000000 = .raised (.invalidWord 0x1000000) ∧ hostDecode 0x0CA000 = .done ⟨0x0C#8, ⟨true, 0x2000#15⟩⟩ := by
  decide

/-- The assembled word of "STA 0x2080,X" (90_conflicts.md C1). -/
theorem test_assemble_indexed_sta : assembleWord "sta" ⟨true, 0x2080#15⟩ = some 0x0CA080#24 := by decide

/-- The table's numbering: opcode in bits 23..16 (opcode_table.json). -/
theorem test_decodeTableWord : decodeTableWord 24 0x3C8000 = some (.j ⟨true, 0x0000#15⟩) := by decide

/-! ### Registers, memory, effective address -/

/-- V1, V2, V3. -/
theorem test_register_truncation :
    (State.reset.setReg .A 0x1000000).a = 0x000000#24 ∧ (State.reset.setReg .PC 0xFFFFFFFF).pc = 0xFFFFFF#24 ∧
    (State.reset.setReg .SW (-1)).sw = 0xFFFFFF#24 := by decide

/-- V9: overlapping words. -/
theorem test_overlapping_words :
    let m := (Memory.setWord [] 0x10 0x112233#24).setWord 0x11 0x445566#24
    m.wordAt 0x10 = 0x114455#24 ∧ m.byteAt 0x13 = 0x66#8 := by decide

/-- W3 and V12: truncation, and a write one past the last word. -/
theorem test_host_word_port_edges :
    hostWriteWord 0x7FFE 0xFFFFFF State.reset = .raised (.outOfBounds 0x7FFE .word .dataWrite) ∧
    (match hostWriteWord 0x7FFD 0x99ABCDEF State.reset with
      | .done t => hostReadWord 0x7FFD t
      | _ => .notAdmitted) = .done 0xABCDEF#24 := by decide

/-- W4, V11: byte truncation, and a negative address. -/
theorem test_host_byte_port_edges :
    hostWriteByte (-1) 5 State.reset = .raised (.outOfBounds (-1) .byte .dataWrite) ∧
    (match hostWriteByte 0x7FFF 0x1F4 State.reset with
      | .done t => hostReadByte 0x7FFF t
      | _ => .notAdmitted) = .done 0xF4#8 := by decide

/-- Writing the byte an unlisted address reads as takes its entry out, so equal memories are equal lists (log 7). -/
theorem test_zero_byte_is_not_listed : Memory.setByte (Memory.setByte [] 5 0x7#8) 5 0x0#8 = [] := by decide

/-- V21, V22. -/
theorem test_effective_address_is_not_reduced :
    effAddr ⟨true, 0x7FFF#15⟩ { State.reset with x := 0xFFFFFF#24 } = 0x1007FFE ∧
    effAddr ⟨true, 0x0010#15⟩ { State.reset with x := 0xFFFFFF#24 } = 0x100000F := by decide

/-! ### One step per instruction -/

/-- W10. -/
theorem test_lda :
    nextIs (step (withWord 0x1050 0xAA55FF#24 (at' 0x1000#24 0x001050#24)))
      { withWord 0x1050 0xAA55FF#24 (at' 0x1000#24 0x001050#24) with a := 0xAA55FF#24, pc := 0x1003#24 } = true := by
  decide

/-- V29: an indexed sum past memory does not wrap. -/
theorem test_lda_indexed_past_memory :
    nextIs (step { at' 0x0100#24 0x008010#24 with x := 0xFFFFFF#24 })
      { at' 0x0100#24 0x008010#24 with
        x := 0xFFFFFF#24, pc := 0x0103#24, fault := some (.outOfBounds 0x100000F .word .dataRead) } = true := by
  decide

/-- W11: not indexed, although X = 0x10. -/
theorem test_sta :
    nextIs (step { at' 0x2000#24 0x0C2080#24 with a := 0xCCBBFF#24, x := 0x10#24 })
      (withWord 0x2080 0xCCBBFF#24 { at' 0x2000#24 0x0C2080#24 with a := 0xCCBBFF#24, x := 0x10#24, pc := 0x2003#24 }) =
      true := by decide

/-- V33. -/
theorem test_sta_past_memory :
    nextIs (step { at' 0x0100#24 0x0C7FFE#24 with a := 0x123456#24 })
      { at' 0x0100#24 0x0C7FFE#24 with
        a := 0x123456#24, pc := 0x0103#24, fault := some (.outOfBounds 0x7FFE .word .dataWrite) } = true := by decide

/-- V38: the sum wraps; SW keeps its value. -/
theorem test_add_wraps :
    nextIs (step (withWord 0x0200 0xFFFFFF#24 { at' 0x0100#24 0x180200#24 with a := 0xFFFFFF#24, sw := 0x3E#24 }))
      (withWord 0x0200 0xFFFFFF#24
        { at' 0x0100#24 0x180200#24 with a := 0xFFFFFE#24, sw := 0x3E#24, pc := 0x0103#24 }) = true := by decide

/-- V42: the difference wraps, in the order A minus the word. -/
theorem test_sub_wraps :
    nextIs (step (withWord 0x0200 0x000005#24 { at' 0x0100#24 0x1C0200#24 with a := 0x000003#24 }))
      (withWord 0x0200 0x000005#24 { at' 0x0100#24 0x1C0200#24 with a := 0xFFFFFE#24, pc := 0x0103#24 }) = true := by
  decide

/-- V50: unsigned, for sentinels other than the reference ones. -/
theorem test_comp_is_unsigned :
    nextIs (step (withWord 0x0200 0x000001#24
        { at' 0x0100#24 0x280200#24 with a := 0xFFFFFF#24, swEnc := ⟨7#24, 0#24, 9#24⟩ }))
      (withWord 0x0200 0x000001#24
        { at' 0x0100#24 0x280200#24 with a := 0xFFFFFF#24, swEnc := ⟨7#24, 0#24, 9#24⟩, sw := 9#24, pc := 0x0103#24 }) =
      true := by decide

/-- V48. -/
theorem test_comp_less :
    nextIs (step (withWord 0x0200 0x000002#24 { at' 0x0100#24 0x280200#24 with a := 1#24 }))
      (withWord 0x0200 0x000002#24
        { at' 0x0100#24 0x280200#24 with a := 1#24, sw := State.reset.swEnc.swLt, pc := 0x0103#24 }) = true := by decide

/-- V57: the target is reduced by mask24; L is not written. -/
theorem test_j_indexed_wraps :
    nextIs (step { at' 0x0100#24 0x3C8010#24 with x := 0xFFFFFF#24, l := 0x55#24 })
      { at' 0x0100#24 0x3C8010#24 with x := 0xFFFFFF#24, l := 0x55#24, pc := 0x00000F#24 } = true := by decide

/-- V60. -/
theorem test_jeq_taken :
    nextIs (step { at' 0x0100#24 0x300500#24 with sw := State.reset.swEnc.swEq })
      { at' 0x0100#24 0x300500#24 with sw := State.reset.swEnc.swEq, pc := 0x0500#24 } = true := by decide

/-- V65: not taken, the effective address never checked. -/
theorem test_jeq_not_taken :
    nextIs (step { at' 0x0100#24 0x30FFFF#24 with sw := State.reset.swEnc.swLt, x := 0xFFFFFF#24 })
      { at' 0x0100#24 0x30FFFF#24 with sw := State.reset.swEnc.swLt, x := 0xFFFFFF#24, pc := 0x0103#24 } = true := by
  decide

/-- V67 to V84: each table-only word, stepped at 0x0100, leaves `PC` = 0x0103 and its own opcode recorded. -/
theorem test_table_only_steps :
    ∀ op ∈ [0x40#8, 0x24#8, 0x34#8, 0x38#8, 0x48#8, 0x50#8, 0x08#8, 0x04#8, 0x20#8, 0x44#8, 0xD8#8, 0x4C#8, 0x54#8,
        0x14#8, 0xE8#8, 0x10#8, 0xE0#8, 0x2C#8, 0xDC#8],
      nextIs (step (at' 0x0100#24 (wordOfBytes op 0x02#8 0x00#8)))
        { at' 0x0100#24 (wordOfBytes op 0x02#8 0x00#8) with
          pc := 0x0103#24, fault := some (.unimplementedOpcode op) } = true := by decide

/-- The example of 43_table_only.md R85. -/
theorem test_unassigned_step :
    nextIs (step (at' 0x0200#24 0xFFFFFF#24))
      { at' 0x0200#24 0xFFFFFF#24 with pc := 0x0203#24, fault := some (.unimplementedOpcode 0xFF#8) } = true := by decide

/-- V25: a fetch fault changes nothing but the record. -/
theorem test_fetch_fault :
    nextIs (step { State.reset with pc := 0x7FFE#24 })
      { State.reset with pc := 0x7FFE#24, fault := some (.outOfBounds 0x7FFE .word .fetch) } = true := by decide

/-! ### Host interface -/

/-- V92, V93, V94, V90. -/
theorem test_opcode_table_lookups :
    hostGetOpcode "HLT" = .raised (.unknownMnemonic "HLT") ∧ hostIsMnemonic "" = false ∧ hostIsMnemonic "jsub" = true ∧
    hostGetOpcode "Jeq" = .done 0x30#8 := by decide

/-- V95. -/
theorem test_load_program :
    loadProgram [0x001009, 0x18100C] 0x1000 State.reset =
      .done { State.reset with
        pc := 0x1000#24
        mem := [(0x1001, 0x10#8), (0x1002, 0x09#8), (0x1003, 0x18#8), (0x1004, 0x10#8), (0x1005, 0x0C#8)] } := by decide

/-- V97, and a word too wide (70_reset_and_hazards.md R110). -/
theorem test_load_program_not_admitted :
    loadProgram [0x000001] 0x7FFE State.reset = .notAdmitted ∧
    loadProgram [0x1000000] 0 State.reset = .notAdmitted := by decide

/-- The codes of 60_exceptions.md R86, in its order. -/
theorem test_fault_codes :
    [Fault.outOfBounds 0 .word .fetch, .unimplementedOpcode 0#8, .invalidWord 0, .unknownRegister "", .unknownMnemonic "",
      .duplicateSymbol ""].map Fault.code = [1, 2, 3, 4, 5, 6] := by decide

/-! ### Witnesses: values that meet the hypotheses of each statement, at the ends of their ranges -/

/-- A machine with a recorded fault. -/
def faulted : State := { State.reset with fault := some (.unimplementedOpcode 0xFF#8) }

/-- The operand whose effective address is the last word, and the one past it. -/
def lastWord : Operand := ⟨false, 0x7FFD#15⟩
def pastLast : Operand := ⟨false, 0x7FFE#15⟩

theorem witness_DecodeOfEncodeIsTheInstruction :
    (Instr.sta ⟨true, 0x7FFF#15⟩).wellFormed = true ∧ (Instr.unassigned 0xFF#8 ⟨true, 0x7FFF#15⟩).wellFormed = true := by
  decide

theorem step_reset :
    step State.reset = .next { State.reset with pc := 3#24 } := eq_next (by decide)

theorem witness_DecoderRejectsExactlyValuesOutsideAWord :
    ((-1 : Int) < 0 ∧ (0xFFFFFF : Int) < 0x1000000 ∧ (0 : Int) ≤ 0xFFFFFF ∧ (0xFFFFFF : Int) ≤ 0xFFFFFF) ∧
    State.reset.fault = none ∧ step State.reset = .next { State.reset with pc := 3#24 } := ⟨by decide, rfl, step_reset⟩

theorem witness_GetOpcodeIsTheTableOfTwentySixEntries : ∀ op : Byte, hostGetOpcode "HLT" ≠ .done op := by
  intro op
  rw [show hostGetOpcode "HLT" = .raised (.unknownMnemonic "HLT") by decide]
  exact fun h => by cases h

theorem witness_IsMnemonicExactlyWhenGetOpcodeSucceeds : upperName "lda" = upperName "LDA" := by decide

/-- The last word address with an opcode with and one without a handler, and the address past it. -/
theorem witness_StepFetchesAdvancesDispatchesExecutes :
    (at' 0x7FFD#24 0x3C7FFD#24).fetches 0x3C7FFD#24 ∧ hasHandler (BitVec.extractLsb' 16 8 0x3C7FFD#24) = true ∧
    (at' 0x7FFD#24 0xFF0000#24).fetches 0xFF0000#24 ∧ hasHandler (BitVec.extractLsb' 16 8 0xFF0000#24) = false ∧
    (at' 0x7FFE#24 0#24).fault = none ∧ Config.memSize - 3 < (at' 0x7FFE#24 0#24).pc.toNat := by decide

theorem witness_StepRunsTheDecodedInstruction :
    (at' 0x7FFD#24 0x001050#24).fault = none ∧ (at' 0x7FFD#24 0x001050#24).pc.toNat ≤ Config.memSize - 3 ∧
    decode [(at' 0x7FFD#24 0x001050#24).mem.byteAt 0x7FFD, (at' 0x7FFD#24 0x001050#24).mem.byteAt (0x7FFD + 1),
      (at' 0x7FFD#24 0x001050#24).mem.byteAt (0x7FFD + 2)] = .ok (.lda ⟨false, 0x1050#15⟩, []) := by
  refine ⟨by decide, by decide, ?_⟩
  rfl

/-- A jump, and an LDA 0 at the last word. -/
theorem witness_PcAfterAStep :
    (at' 0x0100#24 0x3C7FFE#24).fetches 0x3C7FFE#24 ∧ decodeWord 0x3C7FFE#24 = .j pastLast ∧
    step (at' 0x0100#24 0x3C7FFE#24) = .next { at' 0x0100#24 0x3C7FFE#24 with pc := 0x7FFE#24 } ∧
    (at' 0x7FFD#24 0#24).fetches 0#24 ∧ decodeWord 0#24 = .lda ⟨false, 0#15⟩ ∧
    step (at' 0x7FFD#24 0#24) = .next { at' 0x7FFD#24 0#24 with pc := 0x8000#24 } :=
  ⟨by decide, by decide, eq_next (by decide), by decide, by decide, eq_next (by decide)⟩

theorem witness_OpcodesWithoutHandlerRaiseUnimplemented :
    (at' 0x7FFD#24 0x3D0000#24).fetches 0x3D0000#24 ∧
    BitVec.extractLsb' 16 8 0x3D0000#24 ∉ [0x00#8, 0x0C#8, 0x18#8, 0x1C#8, 0x28#8, 0x30#8, 0x3C#8] ∧
    (at' 0#24 0x3C0000#24).fetches 0x3C0000#24 ∧
    BitVec.extractLsb' 16 8 0x3C0000#24 ∈ [0x00#8, 0x0C#8, 0x18#8, 0x1C#8, 0x28#8, 0x30#8, 0x3C#8] := by decide

theorem witness_StepAnswersNextExactlyWhenNotFaulted :
    State.reset.fault = none ∧ faulted.fault = some (.unimplementedOpcode 0xFF#8) := by decide

theorem witness_RegisterWriteStoresMask24InOneCell : RegName.X ≠ RegName.A ∧ State.reset.fault = none := by decide

theorem witness_UnknownRegisterNamesAreRejected :
    "a" ∉ ["A", "X", "L", "PC", "SW"] ∧ "" ∉ ["A", "X", "L", "PC", "SW"] ∧ State.reset.fault = none ∧
    step State.reset = .next { State.reset with pc := 3#24 } := ⟨by decide, by decide, rfl, step_reset⟩

theorem exec_j_reset : exec (.j pastLast) State.reset = .next { State.reset with pc := 0x7FFE#24 } := eq_next (by decide)

theorem witness_EffectiveAddressIsTheUnreducedSum :
    Config.memSize - 3 < effAddr pastLast State.reset ∧
    Config.memSize - 3 < effAddr ⟨true, 0x7FFF#15⟩ { State.reset with x := 0xFFFFFF#24 } ∧
    exec (.j pastLast) State.reset = .next { State.reset with pc := 0x7FFE#24 } := ⟨by decide, by decide, exec_j_reset⟩

theorem witness_WordReadIsBigEndianAndBounded :
    ((0 : Int) ≤ 0 ∧ (0 : Int) ≤ 32765) ∧ ((0 : Int) ≤ 32765 ∧ (32765 : Int) ≤ 32765) ∧ (-1 : Int) < 0 ∧
    (32765 : Int) < 32766 := by decide

theorem witness_WordWriteStoresThreeBytesAndNoOther :
    ((0 : Int) ≤ 32765 ∧ (32765 : Int) ≤ 32765) ∧ (-1 : Int) < 0 ∧ (32765 : Int) < 32766 ∧
    (32764 < (32765 : Int).toNat ∨ (32765 : Int).toNat + 2 < 32764) := by decide

theorem witness_ByteAccessesAreBoundedAndTouchOneByte :
    ((0 : Int) ≤ 0 ∧ (0 : Int) < 32768) ∧ ((0 : Int) ≤ 32767 ∧ (32767 : Int) < 32768) ∧ (-1 : Int) < 0 ∧
    (32768 : Int) ≤ 32768 ∧ 0 ≠ (32767 : Int).toNat := by decide

theorem witness_HostMemoryPortsAnswerWhatThePrimitivesAnswer :
    State.reset.fault = none ∧ ((0 : Int) ≤ 32767 ∧ (32767 : Int) < 32768) ∧ (32768 : Int) ≤ 32768 ∧ (-1 : Int) < 0 ∧
    ((0 : Int) ≤ 32765 ∧ (32765 : Int) ≤ 32765) ∧ (32765 : Int) < 32766 := by decide

theorem witness_MixedWidthAccessesAreBigEndian :
    (∃ t, memWriteWord 32765 0x112233 State.reset = .ok t) ∧
    (∃ t0 t1 t2, memWriteByte 32765 1 State.reset = .ok t0 ∧ memWriteByte (32765 + 1) 2 t0 = .ok t1 ∧
      memWriteByte (32765 + 2) 3 t1 = .ok t2) ∧
    ((0 : Int) ≤ 32764 ∧ ∃ t, memWriteWord (32764 + 1) 0x445566 State.reset = .ok t) :=
  ⟨⟨_, rfl⟩, ⟨_, _, _, rfl, rfl, rfl⟩, by decide, _, rfl⟩

theorem witness_CanonicalMemoriesWithEqualBytesAreEqual :
    Memory.wf [(0, 5#8), (32767, 1#8)] = true ∧
    Memory.setByte (Memory.setByte [] 32767 1#8) 0 5#8 = [(0, 5#8), (32767, 1#8)] := by decide

theorem witness_StoringTheSameWordAgainChangesNothing :
    let s : State := withWord 0x7FFD 0x123456#24 { State.reset with a := 0x123456#24 }
    s.mem.wf = true ∧ effAddr lastWord s ≤ Config.memSize - 3 ∧ s.mem.wordAt (effAddr lastWord s) = s.a ∧
    exec (.sta lastWord) s = .next s := ⟨by decide, by decide, by decide, eq_next (by decide)⟩

theorem witness_LdaLoadsTheWordAtTheEffectiveAddress :
    (0x00FFFF#24 &&& 0xFF0000#24 = 0x000000#24) ∧ effAddr lastWord State.reset ≤ Config.memSize - 3 ∧
    Config.memSize - 3 < effAddr pastLast State.reset := by decide

theorem witness_StaStoresTheAccumulator :
    (0x0CFFFF#24 &&& 0xFF0000#24 = 0x0C0000#24) ∧ effAddr lastWord State.reset ≤ Config.memSize - 3 ∧
    Config.memSize - 3 < effAddr pastLast State.reset ∧ 0x7FFC < effAddr lastWord State.reset := by decide

theorem witness_AddStoresTheSumModulo :
    (0x18FFFF#24 &&& 0xFF0000#24 = 0x180000#24) ∧ effAddr lastWord State.reset ≤ Config.memSize - 3 ∧
    Config.memSize - 3 < effAddr pastLast State.reset := by decide

theorem witness_SubStoresTheDifferenceModulo :
    (0x1CFFFF#24 &&& 0xFF0000#24 = 0x1C0000#24) ∧ effAddr lastWord State.reset ≤ Config.memSize - 3 ∧
    Config.memSize - 3 < effAddr pastLast State.reset := by decide

/-- The three outcomes of the comparison, and the fault. -/
theorem witness_CompWritesTheSentinelOfTheUnsignedComparison :
    let s : State := withWord 0x7FFD 0x800000#24 { State.reset with a := 0x7FFFFF#24 }
    (0x28FFFF#24 &&& 0xFF0000#24 = 0x280000#24) ∧ effAddr lastWord s ≤ Config.memSize - 3 ∧
    s.a.toNat < (s.mem.wordAt (effAddr lastWord s)).toNat ∧
    { s with a := 0x800000#24 }.a = s.mem.wordAt (effAddr lastWord s) ∧
    (s.mem.wordAt (effAddr lastWord s)).toNat < { s with a := 0x800001#24 }.a.toNat ∧
    Config.memSize - 3 < effAddr pastLast s := by decide

theorem witness_JStoresTheTargetInPc :
    (0x3CFFFF#24 &&& 0xFF0000#24 = 0x3C0000#24) ∧ (at' 0x7FFD#24 0x3C7FFD#24).fetches (0x3C0000#24 + 0x7FFD#24) := by
  decide

theorem witness_JeqJumpsExactlyWhenSwIsEqual :
    let s : State := { State.reset with sw := State.reset.swEnc.swEq }
    (0x30FFFF#24 &&& 0xFF0000#24 = 0x300000#24) ∧ s.sw = s.swEnc.swEq ∧ State.reset.sw ≠ State.reset.swEnc.swEq ∧
    exec (.jeq lastWord) s = .next { s with pc := 0x7FFD#24 } ∧
    exec (.jeq pastLast) { s with pc := 0x7FFD#24 } = .next { s with pc := 0x7FFE#24 } ∧
    exec (.jeq lastWord) State.reset = .next State.reset :=
  ⟨by decide, by decide, by decide, eq_next (by decide), eq_next (by decide), eq_next (by decide)⟩

theorem witness_TableOnlyAndToOrRaiseUnimplemented :
    ∀ op ∈ [0x40#8, 0x24#8, 0x34#8, 0x38#8, 0x48#8, 0x50#8, 0x08#8, 0x04#8, 0x20#8, 0x44#8],
      (at' 0x7FFD#24 (wordOfBytes op 0xFF#8 0xFF#8)).fetches (wordOfBytes op 0xFF#8 0xFF#8) ∧
      (wordOfBytes op 0xFF#8 0xFF#8).extractLsb' 16 8 = op := by decide

theorem witness_TableOnlyRdToWdRaiseUnimplemented :
    ∀ op ∈ [0xD8#8, 0x4C#8, 0x54#8, 0x14#8, 0xE8#8, 0x10#8, 0xE0#8, 0x2C#8, 0xDC#8],
      (at' 0x7FFD#24 (wordOfBytes op 0xFF#8 0xFF#8)).fetches (wordOfBytes op 0xFF#8 0xFF#8) ∧
      (wordOfBytes op 0xFF#8 0xFF#8).extractLsb' 16 8 = op := by decide

theorem witness_UnassignedOpcodeBytesRaiseUnimplemented :
    0x01#8 ∉ assignedOpcodes ∧ (0x01#8).toNat % 4 ≠ 0 ∧ BitVec.extractLsb' 16 8 0xFFFFFF#24 ∉ assignedOpcodes ∧
    (at' 0x7FFD#24 0xFFFFFF#24).fetches 0xFFFFFF#24 := by decide

theorem witness_AddAndSubUndoEachOther : effAddr lastWord State.reset ≤ Config.memSize - 3 := by decide

/-- Equal and unequal operands, with sentinels other than the reference ones. -/
theorem witness_JeqAfterCompIsTakenExactlyOnEqual :
    let s : State := { State.reset with swEnc := ⟨1#24, 0#24, 2#24⟩ }
    s.swEnc.distinct = true ∧ effAddr lastWord s ≤ Config.memSize - 3 ∧ s.a = s.mem.wordAt (effAddr lastWord s) ∧
    { s with a := 1#24 }.a ≠ s.mem.wordAt (effAddr lastWord s) := by decide

theorem witness_JumpPastMemoryFaultsAtTheNextFetch :
    State.reset.fault = none ∧ Config.memSize - 3 < effAddr pastLast State.reset % 2 ^ 24 ∧
    Config.memSize - 3 < effAddr ⟨true, 0x7FFF#15⟩ { State.reset with x := 0xFFFFFF#24 } % 2 ^ 24 := by decide

/-- A store over the next word, and one over its own word (V34). -/
theorem witness_StoredWordIsFetchedByTheNextStep :
    let s : State := at' 0x7FFA#24 0x0C7FFD#24
    let u : State := at' 0x0100#24 0x0C0100#24
    s.fetches 0x0C7FFD#24 ∧ decodeWord 0x0C7FFD#24 = .sta lastWord ∧ effAddr lastWord s ≤ Config.memSize - 3 ∧
    effAddr lastWord s = s.pc.toNat + 3 ∧
    u.fetches 0x0C0100#24 ∧ decodeWord 0x0C0100#24 = .sta ⟨false, 0x0100#15⟩ ∧
    effAddr ⟨false, 0x0100#15⟩ u ≤ Config.memSize - 3 := by decide

theorem witness_RegisterInstructionsFrame :
    (∃ t, exec (.lda lastWord) State.reset = .next t) ∧ (∃ t, exec (.add pastLast) State.reset = .next t) ∧
    (∃ t, exec (.sub lastWord) State.reset = .next t) ∧ (∃ t, exec (.comp lastWord) State.reset = .next t) ∧
    (∃ t, exec (.j lastWord) State.reset = .next t) ∧ (∃ t, exec (.jeq lastWord) State.reset = .next t) :=
  ⟨⟨_, rfl⟩, ⟨_, rfl⟩, ⟨_, rfl⟩, ⟨_, rfl⟩, ⟨_, rfl⟩, ⟨_, rfl⟩⟩

theorem witness_StoreFrame :
    (∃ t, exec (.sta lastWord) State.reset = .next t) ∧ 0x7FFC < effAddr lastWord State.reset ∧
    (∃ t, exec (.sta pastLast) State.reset = .next t) ∧ Config.memSize - 3 < effAddr pastLast State.reset :=
  ⟨⟨_, rfl⟩, by decide, ⟨_, rfl⟩, by decide⟩

theorem witness_UnhandledInstructionsFrame :
    hasHandler (Instr.wd lastWord).opcode = false ∧ hasHandler (Instr.unassigned 0xFF#8 lastWord).opcode = false ∧
    (∃ t, exec (.wd lastWord) State.reset = .next t) ∧ (∃ t, exec (.unassigned 0xFF#8 lastWord) State.reset = .next t) :=
  ⟨by decide, by decide, ⟨_, rfl⟩, ⟨_, rfl⟩⟩

/-- A step that changes A, one that changes SW and one that changes a byte of memory. -/
theorem witness_StepWritesEachRegisterOnlyByItsInstructions :
    let s : State := withWord 0x0200 5#24 (at' 0x0100#24 0x000200#24)
    let c : State := at' 0x0100#24 0x280200#24
    let m : State := { at' 0x0100#24 0x0C0200#24 with a := 0x123456#24 }
    (s.fetches 0x000200#24 ∧ step s = .next { s with a := 5#24, pc := 0x0103#24 } ∧ (5#24 ≠ s.a)) ∧
    (c.fetches 0x280200#24 ∧ step c = .next { c with sw := c.swEnc.swEq, pc := 0x0103#24 } ∧ c.swEnc.swEq ≠ c.sw) ∧
    (m.fetches 0x0C0200#24 ∧ step m = .next (withWord 0x0200 0x123456#24 { m with pc := 0x0103#24 }) ∧
      (withWord 0x0200 0x123456#24 m).mem.byteAt 0x0202 ≠ m.mem.byteAt 0x0202) :=
  ⟨⟨by decide, eq_next (by decide), by decide⟩, ⟨by decide, eq_next (by decide), by decide⟩,
    ⟨by decide, eq_next (by decide), by decide⟩⟩

theorem witness_UnreadRegistersDoNotMatter :
    exec (.lda lastWord) State.reset = .next State.reset ∧ (Instr.lda lastWord).operand.x = false ∧
    (∀ m : Operand, Instr.lda lastWord ≠ .jeq m) ∧
    (∀ m : Operand, Instr.lda lastWord ≠ .sta m ∧ Instr.lda lastWord ≠ .add m ∧ Instr.lda lastWord ≠ .sub m ∧
      Instr.lda lastWord ≠ .comp m) ∧
    hasHandler (Instr.tix ⟨true, 0x7FFF#15⟩).opcode = false ∧ (∃ t, exec (.tix ⟨true, 0x7FFF#15⟩) State.reset = .next t) ∧
    (∃ t, exec (.comp lastWord) State.reset = .next t) :=
  ⟨eq_next (by decide), rfl, by simp, by simp, by decide, ⟨_, rfl⟩, ⟨_, rfl⟩⟩

/-- A fetch fault, a dispatch fault, and a fault of each kind of data access. -/
theorem fault_steps :
    step { State.reset with pc := 0x7FFE#24 } =
      .next { State.reset with pc := 0x7FFE#24, fault := some (.outOfBounds 0x7FFE .word .fetch) } ∧
    step (at' 0x7FFD#24 0x480000#24) =
      .next { at' 0x7FFD#24 0x480000#24 with pc := 0x8000#24, fault := some (.unimplementedOpcode 0x48#8) } ∧
    step (at' 0x0100#24 0x007FFE#24) =
      .next { at' 0x0100#24 0x007FFE#24 with pc := 0x0103#24, fault := some (.outOfBounds 0x7FFE .word .dataRead) } ∧
    step (at' 0x0100#24 0x0C7FFE#24) =
      .next { at' 0x0100#24 0x0C7FFE#24 with pc := 0x0103#24, fault := some (.outOfBounds 0x7FFE .word .dataWrite) } :=
  ⟨eq_next (by decide), eq_next (by decide), eq_next (by decide), eq_next (by decide)⟩

theorem witness_FaultLeavesTheExactState :
    ({ State.reset with pc := 0x7FFE#24 } : State).fault = none ∧
    Config.memSize - 3 < ({ State.reset with pc := 0x7FFE#24 } : State).pc.toNat ∧
    (at' 0x7FFD#24 0x480000#24).fault = none ∧ (at' 0x7FFD#24 0x480000#24).pc.toNat ≤ Config.memSize - 3 := by decide

theorem witness_StepFaultHasItsCause :
    (at' 0x7FFD#24 0x480000#24).fetches 0x480000#24 ∧ (at' 0x0100#24 0x007FFE#24).fetches 0x007FFE#24 ∧
    (at' 0x0100#24 0x0C7FFE#24).fetches 0x0C7FFE#24 ∧
    Config.memSize - 3 < ({ State.reset with pc := 0x7FFE#24 } : State).pc.toNat := by decide

theorem witness_RecordedFaultEndsTheRun :
    faulted.fault = some (.unimplementedOpcode 0xFF#8) ∧ HostAction.setReg "A" 5 ≠ .reset ∧
    HostAction.reset.apply faulted = .done State.reset ∧ run 0 State.reset = .completed State.reset := by decide

/-- A state other than the reset state that meets the invariant and steps, and one with a recorded fault. -/
theorem inv_at_jump : (at' 0x7FFD#24 0x3C7FFD#24).Inv := ⟨by decide, by decide, fun f h => by cases h⟩

theorem inv_faulted : faulted.Inv := ⟨by decide, by decide, fun f h => by cases h; decide⟩

theorem witness_CreatedMachineMeetsTheInvariant : SwEnc.distinct ⟨1#24, 0#24, 2#24⟩ = true := by decide

theorem witness_StepKeepsTheInvariant :
    (at' 0x7FFD#24 0x3C7FFD#24).Inv ∧ step (at' 0x7FFD#24 0x3C7FFD#24) = .next (at' 0x7FFD#24 0x3C7FFD#24) :=
  ⟨inv_at_jump, eq_next (by decide)⟩

theorem witness_HostCallKeepsTheInvariant :
    (at' 0x7FFD#24 0x3C7FFD#24).Inv ∧ faulted.Inv ∧ HostAction.reset.apply faulted = .done State.reset ∧
    (HostAction.loadProgram [0xFFFFFF] 0x7FFD).apply State.reset =
      .done { State.reset with pc := 0x7FFD#24, mem := [(0x7FFD, 0xFF#8), (0x7FFE, 0xFF#8), (0x7FFF, 0xFF#8)] } ∧
    (HostAction.writeByte 0x7FFF 0xFF).apply State.reset = .done { State.reset with mem := [(0x7FFF, 0xFF#8)] } :=
  ⟨inv_at_jump, inv_faulted, by decide, by decide, by decide⟩

/-- A faulted state reached by a launch and a step. -/
theorem witness_ReachableStatesMeetTheInvariant :
    SwEnc.distinct Config.referenceSwEnc = true ∧
    Reachable Config.referenceSwEnc
      { at' 0x0100#24 0x480000#24 with pc := 0x0103#24, fault := some (.unimplementedOpcode 0x48#8) } :=
  ⟨by decide, .stepped (at' 0x0100#24 0x480000#24) _
    (.host (.loadProgram [0x480000] 0x0100) _ _ .created (by decide)) (eq_next (by decide))⟩

theorem witness_ResetZeroesRegistersAndMemory :
    HostAction.reset.apply { at' 0x0100#24 0x480000#24 with a := 5#24 } = .done State.reset := by decide

/-- An image that ends at the last byte, the empty image at the end of memory, and three calls outside R110. -/
theorem witness_LoadProgramWritesTheImageAndSetsPc :
    State.reset.fault = none ∧
    ((∀ w ∈ [(0xFFFFFF : Int)], 0 ≤ w ∧ w ≤ 0xFFFFFF) ∧ (0 : Int) ≤ 32765 ∧ (32765 : Int) + 3 * 1 ≤ 32768) ∧
    ((0 : Int) ≤ 32768 ∧ (32768 : Int) + 3 * 0 ≤ 32768) ∧
    ¬ ((32766 : Int) + 3 * 1 ≤ 32768) ∧ ¬ ((0 : Int) ≤ -1) ∧ ¬ ((0x1000000 : Int) ≤ 0xFFFFFF) := by decide

theorem witness_RunIsSequentialSteps :
    State.reset.fault = none ∧ step State.reset = .next { State.reset with pc := 3#24 } ∧
    run 1 State.reset = .completed { State.reset with pc := 3#24 } ∧
    run 1 { State.reset with pc := 0x7FFE#24 } =
      .faulted (.outOfBounds 0x7FFE .word .fetch)
        { State.reset with pc := 0x7FFE#24, fault := some (.outOfBounds 0x7FFE .word .fetch) } ∧
    step (at' 0x7FFD#24 0x480000#24) =
      .next { at' 0x7FFD#24 0x480000#24 with pc := 0x8000#24, fault := some (.unimplementedOpcode 0x48#8) } :=
  ⟨rfl, step_reset, by decide, by decide, fault_steps.2.1⟩

theorem witness_IdleLoopCompletesEveryBudget :
    (at' 0x7FFD#24 0x3C7FFD#24).fetches (0x3C0000#24 + (at' 0x7FFD#24 0x3C7FFD#24).pc) := by decide

theorem witness_PlacedWordIsRunByTheNextStep :
    ({ State.reset with pc := 0x7FFD#24 } : State).fault = none ∧
    ({ State.reset with pc := 0x7FFD#24 } : State).pc.toNat ≤ Config.memSize - 3 ∧ 0xFFFFFF < 2 ^ 24 ∧
    32764 < ({ State.reset with pc := 0x7FFD#24 } : State).pc.toNat := by decide

end Sys2Proof.Machine.Tests
end

section
/-! PROOFS. The statements of 10_state.md: which instruction reads and which writes each register, what every step leaves
unchanged, and the statements settled from that. -/

namespace Sys2Proof.Machine

/-! ### Register writes, for any two registers -/

/-- One cell per register: a write is read back from its register, and every other keeps its value (10_state.md R6, R7). -/
theorem reg_setReg (s : State) (n k : RegName) (v : Int) :
    (s.setReg n v).reg k = if k = n then mask24 v else s.reg k := by
  cases n <;> cases k <;> rfl

theorem reg_setReg_of_ne {n k : RegName} (h : k ≠ n) (s : State) (v : Int) : (s.setReg n v).reg k = s.reg k := by
  rw [reg_setReg, if_neg h]

/-- The later of two writes of one register stays, and writes of two registers commute. -/
theorem setReg_setReg (s : State) (n k : RegName) (v w : Int) :
    (s.setReg n v).setReg k w = if k = n then s.setReg k w else (s.setReg k w).setReg n v := by
  cases n <;> cases k <;> rfl

theorem setReg_of_mem (s : State) (n : RegName) (v : Int) (m : Memory) :
    ({ s with mem := m } : State).setReg n v = { s.setReg n v with mem := m } := by cases n <;> rfl

theorem setReg_of_fault (s : State) (n : RegName) (v : Int) (f : Option Fault) :
    ({ s with fault := f } : State).setReg n v = { s.setReg n v with fault := f } := by cases n <;> rfl

/-! ### The registers each instruction reads and writes (10_state.md R9) -/

/-- The registers an instruction's execute phase reads. -/
def ReadsReg (i : Instr) : RegName → Prop
  | .A  => ∃ m, i = .sta m ∨ i = .add m ∨ i = .sub m ∨ i = .comp m
  | .X  => i.operand.x = true ∧ hasHandler i.opcode = true
  | .SW => ∃ m, i = .jeq m
  | .L | .PC => False

/-- The one register an instruction's execute phase can write, if any. -/
def destReg : Instr → Option RegName
  | .lda _ | .add _ | .sub _ => some .A
  | .j _ | .jeq _            => some .PC
  | .comp _                  => some .SW
  | _                        => none

theorem destReg_eq_A {i : Instr} (h : destReg i = some .A) : ∃ m, i = .lda m ∨ i = .add m ∨ i = .sub m := by
  cases i with
  | lda m => exact ⟨m, .inl rfl⟩
  | add m => exact ⟨m, .inr (.inl rfl)⟩
  | sub m => exact ⟨m, .inr (.inr rfl)⟩
  | _ => cases h

theorem destReg_eq_PC {i : Instr} (h : destReg i = some .PC) : ∃ m, i = .j m ∨ i = .jeq m := by
  cases i with
  | j m => exact ⟨m, .inl rfl⟩
  | jeq m => exact ⟨m, .inr rfl⟩
  | _ => cases h

theorem destReg_eq_SW {i : Instr} (h : destReg i = some .SW) : ∃ m, i = .comp m := by
  cases i with
  | comp m => exact ⟨m, rfl⟩
  | _ => cases h

theorem destReg_ne_X (i : Instr) : destReg i ≠ some .X := by
  intro h; cases i <;> cases h

theorem destReg_ne_L (i : Instr) : destReg i ≠ some .L := by
  intro h; cases i <;> cases h

/-- The four shapes of what an instruction does to a state: nothing (JEQ not taken), one register write, one word stored
(STA), one fault recorded (30_encoding.md R55, R56). -/
inductive Change (s : State) (i : Instr) : State → Prop where
  | nothing : Change s i s
  | reg (n : RegName) (v : Int) : destReg i = some n → Change s i (s.setReg n v)
  | store (m : Operand) : i = .sta m → Change s i { s with mem := s.mem.setWord (effAddr m s) s.a }
  | fault (f : Fault) : Change s i { s with fault := some f }

theorem Change.of_a {s : State} {i : Instr} (h : destReg i = some .A) (w : Word) : Change s i { s with a := w } := by
  simpa using Change.reg (s := s) .A w.toNat h

theorem Change.of_pc {s : State} {i : Instr} (h : destReg i = some .PC) (w : Word) : Change s i { s with pc := w } := by
  simpa using Change.reg (s := s) .PC w.toNat h

theorem Change.of_sw {s : State} {i : Instr} (h : destReg i = some .SW) (w : Word) : Change s i { s with sw := w } := by
  simpa using Change.reg (s := s) .SW w.toNat h

theorem Effect.change {s t : State} {i : Instr} (h : Effect s i t) : Change s i t := by
  cases h with
  | lda m _ => exact .of_a rfl _
  | add m _ => exact .of_a rfl _
  | sub m _ => exact .of_a rfl _
  | comp m _ => exact .of_sw rfl _
  | sta m _ => exact .store m rfl
  | j m => exact .of_pc rfl _
  | jeqTaken m _ => exact .of_pc rfl _
  | jeqNotTaken m _ => exact .nothing
  | readFault | writeFault | noHandler | illFormed => exact .fault _

/-- A register the instruction does not write keeps its value. -/
theorem Change.reg_eq_or_dest {s t : State} {i : Instr} (h : Change s i t) (n : RegName) :
    t.reg n = s.reg n ∨ destReg i = some n := by
  cases h with
  | nothing => exact .inl rfl
  | reg k v hk =>
    by_cases hn : n = k
    · exact .inr (hn ▸ hk)
    · exact .inl (reg_setReg_of_ne hn s v)
  | store m _ => cases n <;> exact .inl rfl
  | fault f => cases n <;> exact .inl rfl

theorem Change.reg_eq {s t : State} {i : Instr} (h : Change s i t) (n : RegName) (hn : destReg i ≠ some n) :
    t.reg n = s.reg n := (h.reg_eq_or_dest n).resolve_right hn

/-- Memory is kept but for the word an STA stores. -/
theorem Change.mem_eq_or_store {s t : State} {i : Instr} (h : Change s i t) :
    t.mem = s.mem ∨ ∃ m, i = .sta m ∧ t.mem = s.mem.setWord (effAddr m s) s.a := by
  cases h with
  | nothing => exact .inl rfl
  | reg k v _ => exact .inl (setReg_mem s k v)
  | store m hi => exact .inr ⟨m, hi, rfl⟩
  | fault f => exact .inl rfl

theorem Change.mem_eq {s t : State} {i : Instr} (h : Change s i t) (hi : ∀ m, i ≠ .sta m) : t.mem = s.mem :=
  h.mem_eq_or_store.resolve_right fun ⟨m, hm, _⟩ => hi m hm

theorem Change.swEnc_eq {s t : State} {i : Instr} (h : Change s i t) : t.swEnc = s.swEnc := by
  cases h with
  | reg k v _ => exact setReg_swEnc s k v
  | nothing | store | fault => rfl

/-- What an instruction answers is one of the four changes. -/
theorem change_of_exec {i : Instr} {s t : State} (h : exec i s = .next t) : Change s i t := (effect_of_exec h).change

theorem exec_jump_fault {i : Instr} {s t : State} (hi : destReg i = some .PC) (h : exec i s = .next t) :
    t.fault = s.fault := by
  obtain ⟨m, rfl | rfl⟩ := destReg_eq_PC hi
  · rw [execJ_eq] at h; cases h; rfl
  · by_cases hs : s.sw = s.swEnc.swEq
    · rw [execJeq_taken hs] at h; cases h; rfl
    · rw [execJeq_not_taken hs] at h; cases h; rfl

/-! ### A step whose fetch succeeded -/

/-- `PC + 3` does not wrap after a fetch inside memory (10_state.md R13). -/
theorem toNat_advancedPc {p : Word} (h : p.toNat ≤ 32765) : (p + 3#24).toNat = p.toNat + 3 := by
  rw [BitVec.toNat_add, BitVec.toNat_ofNat]; omega

/-- A step that fetched `w` runs what `w` decodes to on the state whose PC has advanced (30_encoding.md R51). -/
theorem step_of_fetches {s : State} {w : Word} (hw : s.fetches w) :
    step s = exec (decodeWord w) { s with pc := s.pc + 3#24 } := by
  obtain ⟨hf, hp, rfl⟩ := hw
  exact step_of_fetch hf hp

/-- Settles O9: the decoder on three bytes reads their big-endian word, which is the word the step fetches. -/
theorem stepRunsTheDecodedInstruction : Obligations.StepRunsTheDecodedInstruction := by
  intro s i hf hp hd
  have hi : decodeWord (s.mem.wordAt s.pc.toNat) = i := by
    rw [decode_cons] at hd
    exact congrArg Prod.fst (Except.ok.inj hd)
  subst hi
  exact ⟨decodeWord_wellFormed _, step_of_fetch hf hp, toNat_advancedPc hp⟩

/-- Settles O10: only J and JEQ write `PC`, and a JEQ that is not taken changes nothing. -/
theorem pcAfterAStep : Obligations.PcAfterAStep := by
  intro s t w hw h
  rw [step_of_fetches hw] at h
  obtain ⟨-, hp, -⟩ := hw
  have hadv : (s.pc + 3#24).toNat = s.pc.toNat + 3 := toNat_advancedPc hp
  refine ⟨?_, fun hno => ?_⟩
  · rintro m (hi | ⟨hi, hs⟩)
    · rw [hi, execJ_eq] at h; cases h; exact BitVec.toNat_ofNat ..
    · rw [hi, execJeq_taken (s := { s with pc := s.pc + 3#24 }) hs] at h; cases h; exact BitVec.toNat_ofNat ..
  · obtain hpc | hd := (change_of_exec h).reg_eq_or_dest .PC
    · exact (congrArg BitVec.toNat hpc).trans hadv
    · obtain ⟨m, hi | hi⟩ := destReg_eq_PC hd
      · exact absurd hi (hno m).1
      · rw [hi, execJeq_not_taken (s := { s with pc := s.pc + 3#24 }) ((hno m).2 hi)] at h; cases h; exact hadv

/-- Settles O34: J stores `mask24(EA)` unchecked, and the fetch of the next step is checked there. -/
theorem jumpPastMemoryFaultsAtTheNextFetch : Obligations.JumpPastMemoryFaultsAtTheNextFetch := by
  intro m s hf hea
  have hpc : (BitVec.ofNat 24 (effAddr m s)).toNat = effAddr m s % 2 ^ 24 := BitVec.toNat_ofNat ..
  refine ⟨_, execJ_eq m s, hf, ?_⟩
  rw [← hpc] at hea ⊢
  exact step_of_fetch_fault (s := { s with pc := _ }) hf hea

/-! ### Frames -/

/-- An instruction that can write a register writes no other, and no memory, on a fault too. -/
theorem exec_frame_of_dest {i : Instr} {n : RegName} {s t : State} (hd : destReg i = some n) (h : exec i s = .next t) :
    (∀ k, k ≠ n → t.reg k = s.reg k) ∧ t.swEnc = s.swEnc ∧ ∀ b, t.mem.byteAt b = s.mem.byteAt b := by
  have hc := change_of_exec h
  refine ⟨fun k hk => hc.reg_eq k fun hd' => ?_, hc.swEnc_eq, fun b => ?_⟩
  · exact hk (Option.some.inj (hd'.symm.trans hd))
  · rw [hc.mem_eq (by rintro m rfl; cases hd)]

theorem exec_frame_of_dest_A {i : Instr} {s t : State} (hd : destReg i = some .A) (h : exec i s = .next t) :
    t.x = s.x ∧ t.l = s.l ∧ t.pc = s.pc ∧ t.sw = s.sw ∧ t.swEnc = s.swEnc ∧
      ∀ b : Nat, t.mem.byteAt b = s.mem.byteAt b := by
  obtain ⟨hreg, hrest⟩ := exec_frame_of_dest hd h
  exact ⟨hreg .X (by decide), hreg .L (by decide), hreg .PC (by decide), hreg .SW (by decide), hrest⟩

theorem exec_frame_of_dest_PC {i : Instr} {s t : State} (hd : destReg i = some .PC) (h : exec i s = .next t) :
    t.a = s.a ∧ t.x = s.x ∧ t.l = s.l ∧ t.sw = s.sw ∧ t.fault = s.fault ∧ t.swEnc = s.swEnc ∧
      ∀ b : Nat, t.mem.byteAt b = s.mem.byteAt b := by
  obtain ⟨hreg, hrest⟩ := exec_frame_of_dest hd h
  exact ⟨hreg .A (by decide), hreg .X (by decide), hreg .L (by decide), hreg .SW (by decide), exec_jump_fault hd h,
    hrest⟩

/-- Settles O36: each of the six writes its own register alone and no memory, on a fault too. -/
theorem registerInstructionsFrame : Obligations.RegisterInstructionsFrame := by
  intro m s t
  refine ⟨?_, fun h => ?_, ?_⟩
  · rintro (h | h | h)
    · exact exec_frame_of_dest_A rfl h
    · exact exec_frame_of_dest_A rfl h
    · exact exec_frame_of_dest_A rfl h
  · obtain ⟨hreg, hrest⟩ := exec_frame_of_dest (n := .SW) rfl h
    exact ⟨hreg .A (by decide), hreg .X (by decide), hreg .L (by decide), hreg .PC (by decide), hrest⟩
  · rintro (h | h)
    · exact exec_frame_of_dest_PC rfl h
    · exact exec_frame_of_dest_PC rfl h

/-- The result of a comparison is one of the three sentinels (41_arith_compare.md R61). -/
theorem compareSentinel_cases (e : SwEnc) (a m : Word) :
    compareSentinel e a m = e.swLt ∨ compareSentinel e a m = e.swEq ∨ compareSentinel e a m = e.swGt := by
  unfold compareSentinel
  split
  · exact .inl rfl
  · split
    · exact .inr (.inl rfl)
    · exact .inr (.inr rfl)

/-- COMP leaves `SW` alone (a faulting read) or stores a sentinel in it (10_state.md R14). -/
theorem execComp_sw {m : Operand} {s t : State} (h : exec (.comp m) s = .next t) :
    t.sw = s.sw ∨ t.sw = s.swEnc.swLt ∨ t.sw = s.swEnc.swEq ∨ t.sw = s.swEnc.swGt := by
  obtain hm | hm := Nat.lt_or_ge 32765 (effAddr m s)
  · rw [exec_read_out (.inr (.inr (.inr rfl))) hm] at h; cases h; exact .inl rfl
  · rw [execComp_ok hm] at h; cases h; exact .inr (compareSentinel_cases ..)

/-- Settles O39: a register that changed is one the fetched instruction writes, and a byte that changed is in the word of
an STA. -/
theorem stepWritesEachRegisterOnlyByItsInstructions : Obligations.StepWritesEachRegisterOnlyByItsInstructions := by
  intro s t w hw h
  rw [step_of_fetches hw] at h
  have hc := change_of_exec h
  refine ⟨hc.reg_eq .X (destReg_ne_X _), hc.reg_eq .L (destReg_ne_L _),
    fun ha => destReg_eq_A ((hc.reg_eq_or_dest .A).resolve_left ha), fun hs => ?_, fun b hb => ?_⟩
  · obtain ⟨m, hi⟩ := destReg_eq_SW ((hc.reg_eq_or_dest .SW).resolve_left hs)
    rw [hi] at h
    exact ⟨⟨m, hi⟩, (execComp_sw h).resolve_left hs⟩
  · obtain hm | ⟨m, hi, hm⟩ := hc.mem_eq_or_store
    · exact absurd (congrArg (·.byteAt b) hm) hb
    · have hin : ¬ (b < effAddr m s ∨ effAddr m s + 2 < b) := fun ho =>
        hb (by rw [hm]; exact byteAt_setWord_of_outside _ _ _ _ ho)
      exact ⟨m, hi, by omega, by omega⟩

/-! ### Registers an instruction does not read -/

theorem reg_setReg_of_not_reads {i : Instr} {n k : RegName} (hr : ¬ ReadsReg i n) (hk : ReadsReg i k) (s : State)
    (v : Int) : (s.setReg n v).reg k = s.reg k :=
  reg_setReg_of_ne (by rintro rfl; exact hr hk) s v

theorem effAddr_setReg_of_not_reads {i : Instr} {n : RegName} (hr : ¬ ReadsReg i n) (hh : hasHandler i.opcode = true)
    (s : State) (v : Int) : effAddr i.operand (s.setReg n v) = effAddr i.operand s := by
  cases n with
  | X =>
    have hx : i.operand.x = false := by simpa [ReadsReg, hh] using hr
    simp [effAddr, hx]
  | A | L | PC | SW => rfl

/-- A value put in one register before a write of another is kept; one put in the register itself is lost. -/
theorem setReg_comm_or_dest {i : Instr} {k : RegName} (hw : destReg i = some k) (s : State) (n : RegName) (v w : Int) :
    (s.setReg n v).setReg k w = (s.setReg k w).setReg n v ∨
      (s.setReg n v).setReg k w = s.setReg k w ∧ destReg i = some n := by
  by_cases h : k = n
  · exact .inr ⟨by rw [setReg_setReg, if_pos h], h ▸ hw⟩
  · exact .inl (by rw [setReg_setReg, if_neg h])

/-- An operand read at an address that does not depend on the register: if what follows keeps or overwrites the value put
there, so does the whole, and a fault keeps it. -/
theorem withOperandWord_setReg {m : Operand} {s t : State} {n : RegName} {v : Int} {use use' : Word → State} {P : Prop}
    (he : effAddr m (s.setReg n v) = effAddr m s)
    (hu : ∀ w, use' w = (use w).setReg n v ∨ use' w = use w ∧ P) (h : withOperandWord m s use = .next t) :
    ∃ u, withOperandWord m (s.setReg n v) use' = .next u ∧ (u = t.setReg n v ∨ u = t ∧ P) := by
  obtain hm | hm := Nat.lt_or_ge 32765 (effAddr m s)
  · rw [withOperandWord_out use hm] at h; cases h
    exact ⟨_, withOperandWord_out use' (he.symm ▸ hm), .inl (he ▸ (setReg_of_fault s n v _).symm)⟩
  · rw [withOperandWord_ok use hm] at h; cases h
    refine ⟨_, withOperandWord_ok use' (he.symm ▸ hm), ?_⟩
    rw [he, setReg_mem]; exact hu _

theorem storeOperandWord_setReg {m : Operand} {s t : State} {n : RegName} {v w : Int}
    (he : effAddr m (s.setReg n v) = effAddr m s) (h : storeOperandWord m w s = .next t) :
    storeOperandWord m w (s.setReg n v) = .next (t.setReg n v) := by
  obtain hm | hm := Nat.lt_or_ge 32765 (effAddr m s)
  · rw [storeOperandWord_out w hm] at h; cases h
    rw [storeOperandWord_out w (he.symm ▸ hm), he]; exact congrArg _ (setReg_of_fault s n v _).symm
  · rw [storeOperandWord_ok w hm] at h; cases h
    rw [storeOperandWord_ok w (he.symm ▸ hm), he, setReg_mem]; exact congrArg _ (setReg_of_mem s n v _).symm

/-- Whatever is put beforehand in a register the instruction does not read, the instruction does the same, and the value
stays there unless the instruction writes that register (10_state.md R9). -/
theorem exec_setReg_of_not_reads {i : Instr} {s t : State} {n : RegName} (hr : ¬ ReadsReg i n)
    (h : exec i s = .next t) (v : Int) :
    ∃ u, exec i (s.setReg n v) = .next u ∧ (u = t.setReg n v ∨ u = t ∧ destReg i = some n) := by
  have he := fun hh => effAddr_setReg_of_not_reads hr hh s v
  cases i with
  | lda m => exact withOperandWord_setReg (he rfl) (fun _ => setReg_comm_or_dest (k := .A) rfl ..) h
  | add m =>
    have ha := reg_setReg_of_not_reads (k := .A) hr ⟨m, .inr (.inl rfl)⟩ s v
    refine withOperandWord_setReg (he rfl) (fun w => ?_) h
    rw [ha]; exact setReg_comm_or_dest (k := .A) rfl ..
  | sub m =>
    have ha := reg_setReg_of_not_reads (k := .A) hr ⟨m, .inr (.inr (.inl rfl))⟩ s v
    refine withOperandWord_setReg (he rfl) (fun w => ?_) h
    rw [ha]; exact setReg_comm_or_dest (k := .A) rfl ..
  | comp m =>
    have ha := reg_setReg_of_not_reads (k := .A) hr ⟨m, .inr (.inr (.inr rfl))⟩ s v
    refine withOperandWord_setReg (he rfl) (fun w => ?_) h
    rw [ha, setReg_swEnc]; exact setReg_comm_or_dest (k := .SW) rfl ..
  | sta m =>
    have ha := reg_setReg_of_not_reads (k := .A) hr ⟨m, .inl rfl⟩ s v
    refine ⟨_, ?_, .inl rfl⟩
    rw [exec, execSta, ha]; exact storeOperandWord_setReg (he rfl) h
  | j m =>
    cases h
    refine ⟨_, rfl, ?_⟩
    rw [show effAddr m _ = _ from he rfl]; exact setReg_comm_or_dest (k := .PC) rfl ..
  | jeq m =>
    have hs : swIsEqual (s.setReg n v) = swIsEqual s := by
      rw [swIsEqual, reg_setReg_of_not_reads (k := .SW) hr ⟨m, rfl⟩ s v, setReg_swEnc, swIsEqual]
    cases h
    refine ⟨_, rfl, ?_⟩
    rw [hs, show effAddr m _ = _ from he rfl]
    split
    · exact setReg_comm_or_dest (k := .PC) rfl ..
    · exact .inl rfl
  | _ => cases h; exact ⟨_, rfl, .inl (setReg_of_fault ..).symm⟩

/-- Settles O40: `exec_setReg_of_not_reads` for each register. -/
theorem unreadRegistersDoNotMatter : Obligations.UnreadRegistersDoNotMatter := by
  intro i s t v h
  have key := fun n hr => exec_setReg_of_not_reads (n := n) hr h v.toNat
  refine ⟨?_, fun hx => ?_, ?_, fun hj => ?_, fun ha => ?_⟩
  · simpa [destReg_ne_L] using key .L id
  · have hr : ¬ ReadsReg i .X := by
      rintro ⟨hx1, hh⟩
      obtain hx0 | hn := hx
      · rw [hx0] at hx1; cases hx1
      · rw [hn] at hh; cases hh
    simpa [destReg_ne_X] using key .X hr
  · obtain ⟨u, hu, hk⟩ := key .PC id
    exact ⟨u, by simpa using hu, hk.imp (by simp) (And.imp_right destReg_eq_PC)⟩
  · obtain ⟨u, hu, hk⟩ := key .SW fun ⟨m, hm⟩ => hj m hm
    exact ⟨u, by simpa using hu, hk.imp (by simp) (And.imp_right destReg_eq_SW)⟩
  · have hr : ¬ ReadsReg i .A := by
      rintro ⟨m, hi⟩
      obtain ⟨hsta, hadd, hsub, hcomp⟩ := ha m
      exact hi.elim hsta fun hi => hi.elim hadd fun hi => hi.elim hsub hcomp
    have hlda (hd : destReg i = some .A) : ∃ m, i = .lda m := by
      obtain ⟨m, hi⟩ := destReg_eq_A hd
      obtain ⟨-, hadd, hsub, -⟩ := ha m
      exact ⟨m, hi.resolve_right fun hi => hi.elim hadd hsub⟩
    obtain ⟨u, hu, hk⟩ := key .A hr
    exact ⟨u, by simpa using hu, hk.imp (by simp) (And.imp_right hlda)⟩

/-! ### The host's register ports -/

theorem unlessFaulted_of_none {α : Type} {s : State} (h : s.fault = none) (r : HostResult α) : unlessFaulted s r = r := by
  rw [unlessFaulted, h]

/-- The names that stand for no register are those outside the five (10_state.md R8). -/
theorem regNamed_eq_none {name : String} (h : name ∉ ["A", "X", "L", "PC", "SW"]) : regNamed name = none := by
  simp only [List.mem_cons, List.not_mem_nil, or_false, not_or] at h
  obtain ⟨hA, hX, hL, hPC, hSW⟩ := h
  rw [regNamed, if_neg hA, if_neg hX, if_neg hL, if_neg hPC, if_neg hSW]

theorem hostGetReg_of_named {name : String} {n : RegName} (h : regNamed name = some n) (s : State) :
    hostGetReg name s = .done (s.reg n) := by
  rw [hostGetReg, h]

theorem hostSetReg_of_named {name : String} {n : RegName} (h : regNamed name = some n) {s : State}
    (hf : s.fault = none) (v : Int) : hostSetReg name v s = .done (s.setReg n v) := by
  rw [hostSetReg, h]; exact unlessFaulted_of_none hf _

/-- Settles O13: a register write is one cell, and each host port does it for the register its name stands for. -/
theorem registerWriteStoresMask24InOneCell : Obligations.RegisterWriteStoresMask24InOneCell := by
  refine ⟨fun s n v => ?_, fun s v hf => ?_, fun s => ?_, fun enc n => ?_⟩
  · exact ⟨by rw [reg_setReg, if_pos rfl, mask24], fun k hk => reg_setReg_of_ne hk s v, setReg_mem s n v,
      setReg_fault s n v, setReg_swEnc s n v⟩
  · have set := fun {name n} (h : regNamed name = some n) => hostSetReg_of_named h hf v
    exact ⟨set rfl, set rfl, set rfl, set rfl, set rfl⟩
  · have get := fun {name n} (h : regNamed name = some n) => hostGetReg_of_named h s
    exact ⟨get (n := .A) rfl, get (n := .X) rfl, get (n := .L) rfl, get (n := .PC) rfl, get (n := .SW) rfl⟩
  · cases n <;> rfl

/-! ### The faults a step records -/

theorem raisableByStep_of_word {n : Nat} (k : AccessKind) (hlo : 32765 < n) (hhi : n ≤ 0x1007FFE) :
    (Fault.outOfBounds n .word k).raisableByStep = true := by
  unfold Fault.raisableByStep; rw [decide_eq_true_eq]; simp only [Config.memSize]; omega

/-- A decoded instruction records only a fault a step can raise (60_exceptions.md R87, R88). -/
theorem Effect.fault_raisable {s t : State} {i : Instr} {w : Word} {f : Fault} (h : Effect s i t)
    (hw : decodeWord w = i) (hs : s.fault = none) (hf : t.fault = some f) : f.raisableByStep = true := by
  cases h with
  | readFault _ m _ hm | writeFault m hm =>
    cases hf; exact raisableByStep_of_word _ hm (effAddr_le m s)
  | noHandler _ hh => cases hf; simp [Fault.raisableByStep, hh]
  | illFormed op m hh => rw [decodeWord_unassigned hw] at hh; cases hh
  | _ => rw [hs] at hf; cases hf

/-- What a step records is an `OutOfBounds` of a word past the last one or an `UnimplementedOpcode` without a handler. -/
theorem step_fault_raisable {s t : State} {f : Fault} (h : step s = .next t) (hf : t.fault = some f) :
    f.raisableByStep = true := by
  obtain ⟨hs, ⟨hp, rfl⟩ | ⟨_, i, hi, he⟩⟩ := step_cases h
  · cases hf; exact raisableByStep_of_word _ hp (by have := s.pc.isLt; omega)
  · exact he.fault_raisable hi hs hf

/-- Settles O14: such a name stands for no register, and `UnknownRegister` is no fault a step can raise. -/
theorem unknownRegisterNamesAreRejected : Obligations.UnknownRegisterNamesAreRejected := by
  intro name hname
  have hn := regNamed_eq_none hname
  refine ⟨fun s v => ⟨by rw [hostGetReg, hn], by rw [hostSetReg, hn]⟩, fun s t _ h hf => ?_⟩
  exact absurd (step_fault_raisable h hf) (by simp [Fault.raisableByStep])

end Sys2Proof.Machine
end

section
/-! PROOFS. The statements of 20_memory.md: what each bounds-checked access answers, one byte order for bytes and words,
canonical memories as functions of their bytes, and the invariant under every step and host call. -/

namespace Sys2Proof.Machine

/-! ### The bounds-checked accesses (20_memory.md R21 to R25) -/

theorem memReadByte_ok {a : Int} (h : 0 ≤ a ∧ a ≤ 32767) (k : AccessKind) (s : State) :
    memReadByte k a s = .ok (s.mem.byteAt a.toNat) :=
  if_pos ((inBounds_byte a).mpr h)

theorem memReadByte_out {a : Int} (h : a < 0 ∨ 32767 < a) (k : AccessKind) (s : State) :
    memReadByte k a s = .error (.outOfBounds a .byte k) :=
  if_neg (mt (inBounds_byte a).mp (by omega))

theorem memReadWord_ok {a : Int} (h : 0 ≤ a ∧ a ≤ 32765) (k : AccessKind) (s : State) :
    memReadWord k a s = .ok (s.mem.wordAt a.toNat) :=
  if_pos ((inBounds_word a).mpr h)

theorem memReadWord_out {a : Int} (h : a < 0 ∨ 32765 < a) (k : AccessKind) (s : State) :
    memReadWord k a s = .error (.outOfBounds a .word k) :=
  if_neg (mt (inBounds_word a).mp (by omega))

theorem memWriteByte_ok {a : Int} (h : 0 ≤ a ∧ a ≤ 32767) (v : Int) (s : State) :
    memWriteByte a v s = .ok { s with mem := s.mem.setByte a.toNat (mask8 v) } :=
  if_pos ((inBounds_byte a).mpr h)

theorem memWriteByte_out {a : Int} (h : a < 0 ∨ 32767 < a) (v : Int) (s : State) :
    memWriteByte a v s = .error (.outOfBounds a .byte .dataWrite) :=
  if_neg (mt (inBounds_byte a).mp (by omega))

theorem memWriteWord_ok {a : Int} (h : 0 ≤ a ∧ a ≤ 32765) (v : Int) (s : State) :
    memWriteWord a v s = .ok { s with mem := s.mem.setWord a.toNat (mask24 v) } :=
  if_pos ((inBounds_word a).mpr h)

theorem memWriteWord_out {a : Int} (h : a < 0 ∨ 32765 < a) (v : Int) (s : State) :
    memWriteWord a v s = .error (.outOfBounds a .word .dataWrite) :=
  if_neg (mt (inBounds_word a).mp (by omega))

/-- A byte write that is done was in bounds and set one byte. -/
theorem memWriteByte_inv {a v : Int} {s t : State} (h : memWriteByte a v s = .ok t) :
    (0 ≤ a ∧ a ≤ 32767) ∧ t = { s with mem := s.mem.setByte a.toNat (mask8 v) } := by
  by_cases ha : 0 ≤ a ∧ a ≤ 32767
  · rw [memWriteByte_ok ha] at h; cases h; exact ⟨ha, rfl⟩
  · rw [memWriteByte_out (by omega)] at h; cases h

/-- A word write that is done was in bounds and set one word. -/
theorem memWriteWord_inv {a v : Int} {s t : State} (h : memWriteWord a v s = .ok t) :
    (0 ≤ a ∧ a ≤ 32765) ∧ t = { s with mem := s.mem.setWord a.toNat (mask24 v) } := by
  by_cases ha : 0 ≤ a ∧ a ≤ 32765
  · rw [memWriteWord_ok ha] at h; cases h; exact ⟨ha, rfl⟩
  · rw [memWriteWord_out (by omega)] at h; cases h

/-! ### The bytes a write leaves -/

@[simp] theorem byteAt_setByte_same (m : Memory) (a : Nat) (v : Byte) : (m.setByte a v).byteAt a = v := by
  rw [byteAt_setByte, if_pos rfl]

theorem byteAt_setByte_of_ne {a b : Nat} (h : b ≠ a) (m : Memory) (v : Byte) :
    (m.setByte a v).byteAt b = m.byteAt b := by
  rw [byteAt_setByte, if_neg h]

@[simp] theorem byteAt_setWord_high (m : Memory) (a : Nat) (w : Word) : (m.setWord a w).byteAt a = highByte w := by
  rw [byteAt_setWord, if_pos rfl]

@[simp] theorem byteAt_setWord_mid (m : Memory) (a : Nat) (w : Word) :
    (m.setWord a w).byteAt (a + 1) = midByte w := by
  rw [byteAt_setWord, if_neg (by omega), if_pos rfl]

@[simp] theorem byteAt_setWord_low (m : Memory) (a : Nat) (w : Word) :
    (m.setWord a w).byteAt (a + 2) = lowByte w := by
  rw [byteAt_setWord, if_neg (by omega), if_neg (by omega), if_pos rfl]

/-- Big-endian: the first byte stands highest (20_memory.md R23, R26). -/
theorem wordOfBytes_eq_append (b0 b1 b2 : Byte) : wordOfBytes b0 b1 b2 = (b0 ++ b1) ++ b2 := by
  have h1 := b1.isLt; have h2 := b2.isLt
  apply BitVec.eq_of_toNat_eq
  rw [wordOfBytes_toNat, BitVec.toNat_append, BitVec.toNat_append,
    ← Nat.shiftLeft_add_eq_or_of_lt h2, ← Nat.shiftLeft_add_eq_or_of_lt h1, Nat.shiftLeft_eq, Nat.shiftLeft_eq]
  omega

/-- The word at `a` after a word write at `a + 1`: the old byte, then the written word's upper two bytes. -/
theorem wordAt_setWord_succ (m : Memory) (a : Nat) (w : Word) :
    (m.setWord (a + 1) w).wordAt a = wordOfBytes (m.byteAt a) (highByte w) (midByte w) := by
  rw [Memory.wordAt, byteAt_setWord_of_outside _ _ _ _ (by omega), byteAt_setWord_high, byteAt_setWord_mid]

/-- The word of three bytes written in turn. -/
theorem wordAt_setByte_three (m : Memory) (a : Nat) (b0 b1 b2 : Byte) :
    (((m.setByte a b0).setByte (a + 1) b1).setByte (a + 2) b2).wordAt a = wordOfBytes b0 b1 b2 := by
  simp [Memory.wordAt, byteAt_setByte]

/-- Settles O16: the bounds check, and the word of the three bytes as a number. -/
theorem wordReadIsBigEndianAndBounded : Obligations.WordReadIsBigEndianAndBounded :=
  fun k _ s => ⟨fun ha => ⟨memReadWord_ok ha k s, wordOfBytes_toNat ..⟩, fun ha => memReadWord_out ha k s⟩

/-- Settles O17: in bounds the next state is the one word set, whose bytes are then read back. -/
theorem wordWriteStoresThreeBytesAndNoOther : Obligations.WordWriteStoresThreeBytesAndNoOther := by
  refine fun a v s => ⟨fun ha => ⟨_, memWriteWord_ok ha v s, ?_⟩, fun ha => memWriteWord_out ha v s⟩
  refine ⟨byteAt_setWord_high .., byteAt_setWord_mid .., byteAt_setWord_low ..,
    fun b hb => byteAt_setWord_of_outside _ _ _ _ hb, rfl, fun k => ?_⟩
  rw [memReadWord_ok ha]; exact congrArg _ (wordAt_setWord ..)

/-- Settles O18: the bounds checks, and the one byte a write sets. -/
theorem byteAccessesAreBoundedAndTouchOneByte : Obligations.ByteAccessesAreBoundedAndTouchOneByte := by
  refine ⟨fun k a s => ⟨fun ha => memReadByte_ok (by omega) k s, fun ha => memReadByte_out (by omega) k s⟩,
    fun a v s => ⟨fun ha => ⟨_, memWriteByte_ok (by omega) v s, ?_⟩, fun ha => memWriteByte_out (by omega) v s⟩⟩
  exact ⟨byteAt_setByte_same .., fun b hb => byteAt_setByte_of_ne hb .., rfl⟩

/-- Settles O19: in every part the accesses are in bounds, and the bytes they meet are those the writes left. -/
theorem mixedWidthAccessesAreBigEndian : Obligations.MixedWidthAccessesAreBigEndian := by
  refine ⟨fun a v s t h => ?_, fun a v0 v1 v2 s t0 t1 t2 h0 h1 h2 => ?_, fun a v s t h0 h => ?_, fun s => rfl⟩
  · obtain ⟨ha, rfl⟩ := memWriteWord_inv h
    have e1 : (a + 1).toNat = a.toNat + 1 := by omega
    have e2 : (a + 2).toNat = a.toNat + 2 := by omega
    rw [memReadByte_ok (by omega), memReadByte_ok (by omega), memReadByte_ok (by omega), e1, e2,
      byteAt_setWord_high, byteAt_setWord_mid, byteAt_setWord_low]
    exact ⟨rfl, rfl, rfl⟩
  · obtain ⟨ha0, rfl⟩ := memWriteByte_inv h0
    obtain ⟨-, rfl⟩ := memWriteByte_inv h1
    obtain ⟨ha2, rfl⟩ := memWriteByte_inv h2
    have e1 : (a + 1).toNat = a.toNat + 1 := by omega
    have e2 : (a + 2).toNat = a.toNat + 2 := by omega
    rw [memReadWord_ok (by omega), e1, e2, wordAt_setByte_three, wordOfBytes_eq_append]
    rfl
  · obtain ⟨ha, rfl⟩ := memWriteWord_inv h
    have e1 : (a + 1).toNat = a.toNat + 1 := by omega
    rw [memReadWord_ok (by omega), e1, wordAt_setWord_succ, wordOfBytes_eq_append]
    rfl

/-! ### Canonical memories are fixed by their bytes (20_memory.md R19, R20; log 7) -/

theorem byteAt_of_lt_canonicalFrom {m : Memory} {lo a : Nat} (h : Memory.canonicalFrom lo m = true) (ha : a < lo) :
    m.byteAt a = Config.unlistedByte := by
  induction m generalizing lo with
  | nil => rfl
  | cons c m ih =>
    obtain ⟨k, v⟩ := c
    obtain ⟨hk, -, -, hm⟩ := canonicalFrom_cons.mp h
    rw [Memory.byteAt, if_neg (by omega)]
    exact ih hm (by omega)

theorem byteAt_of_memSize_le {m : Memory} {lo a : Nat} (h : Memory.canonicalFrom lo m = true)
    (ha : Config.memSize ≤ a) : m.byteAt a = Config.unlistedByte := by
  induction m generalizing lo with
  | nil => rfl
  | cons c m ih =>
    obtain ⟨k, v⟩ := c
    obtain ⟨-, hk, -, hm⟩ := canonicalFrom_cons.mp h
    rw [Memory.byteAt, if_neg (by omega)]
    exact ih hm

/-- The head of a canonical memory is its lowest address with a byte other than 0, so no canonical memory with the same
bytes starts above it. -/
theorem head_le_of_byteAt_eq {j k lo : Nat} {u : Byte} {m n : Memory}
    (hm : Memory.canonicalFrom lo ((j, u) :: m) = true) (hn : Memory.canonicalFrom k n = true)
    (hb : ∀ a, Memory.byteAt ((j, u) :: m) a = n.byteAt a) : k ≤ j := by
  obtain ⟨-, -, hu, -⟩ := canonicalFrom_cons.mp hm
  by_contra hlt
  have hj := hb j
  rw [byteAt_of_lt_canonicalFrom hn (by omega), Memory.byteAt, if_pos rfl] at hj
  exact hu hj

theorem canonicalFrom_head {lo k : Nat} {v : Byte} {m : Memory} (h : Memory.canonicalFrom lo ((k, v) :: m) = true) :
    Memory.canonicalFrom k ((k, v) :: m) = true :=
  canonicalFrom_cons.mpr ⟨le_rfl, (canonicalFrom_cons.mp h).2⟩

/-- Canonical memories with the same bytes have the same head, and so do their tails. -/
theorem eq_of_byteAt_eq {lo : Nat} {m n : Memory} (hm : Memory.canonicalFrom lo m = true)
    (hn : Memory.canonicalFrom lo n = true) (hb : ∀ a, m.byteAt a = n.byteAt a) : m = n := by
  induction m generalizing lo n with
  | nil =>
    cases n with
    | nil => rfl
    | cons c n => exact absurd (head_le_of_byteAt_eq (k := c.1 + 1) (n := []) hn rfl fun a => (hb a).symm) (by omega)
  | cons c m ih =>
    obtain ⟨j, u⟩ := c
    cases n with
    | nil => exact absurd (head_le_of_byteAt_eq (k := j + 1) hm rfl hb) (by omega)
    | cons d n =>
      obtain ⟨k, v⟩ := d
      obtain rfl : j = k := Nat.le_antisymm
        (head_le_of_byteAt_eq hn (canonicalFrom_head hm) fun a => (hb a).symm)
        (head_le_of_byteAt_eq hm (canonicalFrom_head hn) hb)
      obtain rfl : u = v := by simpa [Memory.byteAt] using hb j
      obtain ⟨-, -, -, hm⟩ := canonicalFrom_cons.mp hm
      obtain ⟨-, -, -, hn⟩ := canonicalFrom_cons.mp hn
      refine congrArg _ (ih hm hn fun a => ?_)
      by_cases ha : a = j
      · rw [byteAt_of_lt_canonicalFrom hm (by omega), byteAt_of_lt_canonicalFrom hn (by omega)]
      · simpa [Memory.byteAt, ha] using hb a

/-- Settles O20: past the last address both read 0, so the memories agree everywhere. -/
theorem canonicalMemoriesWithEqualBytesAreEqual : Obligations.CanonicalMemoriesWithEqualBytesAreEqual := by
  intro m n hm hn hb
  refine eq_of_byteAt_eq hm hn fun a => ?_
  obtain ha | ha := Nat.lt_or_ge a Config.memSize
  · exact hb a ha
  · rw [byteAt_of_memSize_le hm ha, byteAt_of_memSize_le hn ha]

/-- Writing the word a canonical memory already holds gives the same data (20_memory.md R29). -/
theorem setWord_wordAt_self {m : Memory} (hm : m.wf = true) {a : Nat} (ha : a + 2 < Config.memSize) :
    m.setWord a (m.wordAt a) = m := by
  refine eq_of_byteAt_eq (wf_setWord hm ha _) hm fun b => ?_
  rw [byteAt_setWord, Memory.wordAt, highByte_wordOfBytes, midByte_wordOfBytes, lowByte_wordOfBytes]
  split_ifs with h0 h1 h2
  · rw [h0]
  · rw [h1]
  · rw [h2]
  · rfl

/-- The only instruction that writes memory is STA, and it writes inside memory. -/
theorem Effect.mem_wf {s t : State} {i : Instr} (h : Effect s i t) (hs : s.mem.wf = true) : t.mem.wf = true := by
  cases h with
  | sta m hm => exact wf_setWord hs (Nat.lt_succ_of_le (Nat.add_le_add_right hm 2)) _
  | _ => exact hs

/-! ### STA (20_memory.md R29, R35) -/

/-- An STA whose word is already in memory is no change. -/
theorem execSta_self {m : Operand} {s : State} (hwf : s.mem.wf = true) (hea : effAddr m s ≤ 32765)
    (hw : s.mem.wordAt (effAddr m s) = s.a) : exec (.sta m) s = .next s := by
  have hmem := setWord_wordAt_self hwf (Nat.lt_succ_of_le (Nat.add_le_add_right hea 2))
  rw [hw] at hmem
  rw [execSta_ok hea, hmem]

/-- Settles O21: after the first STA the word at `EA` is `A`, so both parts are `execSta_self`. -/
theorem storingTheSameWordAgainChangesNothing : Obligations.StoringTheSameWordAgainChangesNothing := by
  refine fun m s hwf hea => ⟨execSta_self hwf hea, fun t ht => ?_⟩
  have htwf : t.mem.wf = true := (effect_of_exec ht).mem_wf hwf
  rw [execSta_ok hea] at ht; cases ht
  exact execSta_self htwf hea (wordAt_setWord ..)

/-- Settles O35: the next fetch reads at the address the store wrote, where the advanced `PC` does not wrap. -/
theorem storedWordIsFetchedByTheNextStep : Obligations.StoredWordIsFetchedByTheNextStep := by
  intro s w m hw hi hea
  have hst : step s = .next { s with pc := s.pc + 3#24, mem := s.mem.setWord (effAddr m s) s.a } := by
    rw [step_of_fetches hw, hi]; exact execSta_ok (s := { s with pc := _ }) hea
  refine ⟨_, hst, rfl, wordAt_setWord .., fun hnext => ?_⟩
  obtain ⟨hf, hp, -⟩ := hw
  have hpc : (s.pc + 3#24).toNat = effAddr m s := (toNat_advancedPc hp).trans hnext.symm
  have hfetch : State.fetches { s with pc := s.pc + 3#24, mem := s.mem.setWord (effAddr m s) s.a } s.a :=
    ⟨hf, hpc.trans_le hea, by rw [hpc]; exact wordAt_setWord ..⟩
  exact ⟨hfetch, step_of_fetches hfetch⟩

/-! ### The invariant under a step -/

theorem step_mem_wf {s t : State} (h : step s = .next t) (hs : s.mem.wf = true) : t.mem.wf = true := by
  obtain ⟨-, ⟨-, rfl⟩ | ⟨-, i, -, he⟩⟩ := step_cases h
  · exact hs
  · exact he.mem_wf hs

theorem step_swEnc {s t : State} (h : step s = .next t) : t.swEnc = s.swEnc := by
  obtain ⟨-, ⟨-, rfl⟩ | ⟨-, i, -, he⟩⟩ := step_cases h
  · rfl
  · exact he.change.swEnc_eq

/-- Settles O45: memory stays canonical, the sentinels are not written, and the recorded fault is one a step raises. -/
theorem stepKeepsTheInvariant : Obligations.StepKeepsTheInvariant :=
  fun _ _ hs h => ⟨step_mem_wf h hs.mem_wf, step_swEnc h ▸ hs.sw_distinct, fun _ => step_fault_raisable h⟩

/-! ### The invariant under the host's calls -/

theorem State.Inv.created {enc : SwEnc} (h : enc.distinct = true) : (State.created enc).Inv :=
  ⟨wf_nil, h, fun _ hf => nomatch hf⟩

/-- Settles O44: a created machine has the empty memory and no fault, and the reference sentinels are distinct. -/
theorem createdMachineMeetsTheInvariant : Obligations.CreatedMachineMeetsTheInvariant :=
  ⟨fun _ h => .created h, .created (by decide)⟩

theorem State.Inv.setReg {s : State} (h : s.Inv) (n : RegName) (v : Int) : (s.setReg n v).Inv :=
  ⟨(setReg_mem s n v).symm ▸ h.mem_wf, (setReg_swEnc s n v).symm ▸ h.sw_distinct,
    (setReg_fault s n v).symm ▸ h.fault_ok⟩

theorem State.Inv.withMem {s : State} (h : s.Inv) {m : Memory} (hm : m.wf = true) : State.Inv { s with mem := m } :=
  ⟨hm, h.sw_distinct, h.fault_ok⟩

/-- An image that fits keeps the canonical form (70_reset_and_hazards.md R109, R110). -/
theorem wf_setWords {m : Memory} (hm : m.wf = true) (a : Nat) (ws : List Int)
    (hfit : a + 3 * ws.length ≤ Config.memSize) : (m.setWords a ws).wf = true := by
  induction ws generalizing m a with
  | nil => exact hm
  | cons w ws ih =>
    rw [List.length_cons] at hfit
    exact ih (wf_setWord hm (by omega) _) (a + 3) (by omega)

/-- A change that was done was made of a machine with no recorded fault. -/
theorem unlessFaulted_eq_done {α : Type} {s : State} {r : HostResult α} {v : α} (h : unlessFaulted s r = .done v) :
    s.fault = none ∧ r = .done v := by
  cases hf : s.fault with
  | none => rw [unlessFaulted_of_none hf] at h; exact ⟨rfl, h⟩
  | some f => rw [unlessFaulted, hf] at h; cases h

theorem ofExcept_eq_done {α : Type} {r : Except Fault α} {v : α} (h : HostResult.ofExcept r = .done v) : r = .ok v := by
  cases r with
  | ok w => cases h; rfl
  | error f => cases h

theorem launchAdmitted_fits {ws : List Int} {a : Int} (h : launchAdmitted ws a = true) :
    a.toNat + 3 * ws.length ≤ Config.memSize := by
  obtain ⟨-, hfit⟩ := Bool.and_eq_true_iff.mp h
  rw [decide_eq_true_eq, Config.wordBytes] at hfit
  omega

theorem loadProgram_keeps_inv {ws : List Int} {a : Int} {s t : State} (hs : s.Inv)
    (h : loadProgram ws a s = .done t) : t.Inv := by
  unfold loadProgram at h
  split at h
  · next hl =>
    obtain ⟨-, ht⟩ := unlessFaulted_eq_done h
    cases ht
    exact (hs.withMem (wf_setWords hs.mem_wf _ _ (launchAdmitted_fits hl))).setReg .PC a
  · cases h

theorem hostSetReg_keeps_inv {name : String} {v : Int} {s t : State} (hs : s.Inv)
    (h : hostSetReg name v s = .done t) : t.Inv := by
  unfold hostSetReg at h
  split at h
  · next n _ =>
    obtain ⟨-, ht⟩ := unlessFaulted_eq_done h
    cases ht
    exact hs.setReg n v
  · cases h

theorem hostWriteByte_keeps_inv {a v : Int} {s t : State} (hs : s.Inv) (h : hostWriteByte a v s = .done t) : t.Inv := by
  obtain ⟨-, h⟩ := unlessFaulted_eq_done h
  obtain ⟨ha, rfl⟩ := memWriteByte_inv (ofExcept_eq_done h)
  exact hs.withMem (wf_setByte hs.mem_wf (by rw [Config.memSize]; omega) _)

theorem hostWriteWord_keeps_inv {a v : Int} {s t : State} (hs : s.Inv) (h : hostWriteWord a v s = .done t) : t.Inv := by
  obtain ⟨-, h⟩ := unlessFaulted_eq_done h
  obtain ⟨ha, rfl⟩ := memWriteWord_inv (ofExcept_eq_done h)
  exact hs.withMem (wf_setWord hs.mem_wf (by rw [Config.memSize]; omega) _)

/-- Settles O46, one host call at a time. -/
theorem hostCallKeepsTheInvariant : Obligations.HostCallKeepsTheInvariant := by
  intro c s t hs h
  cases c with
  | reset => cases h; exact .created hs.sw_distinct
  | loadProgram ws a => exact loadProgram_keeps_inv hs h
  | setReg name v => exact hostSetReg_keeps_inv hs h
  | writeByte a v => exact hostWriteByte_keeps_inv hs h
  | writeWord a v => exact hostWriteWord_keeps_inv hs h

/-! ### The host's memory ports (20_memory.md R21 to R24) -/

theorem hostReadByte_ok {a : Int} (h : 0 ≤ a ∧ a ≤ 32767) (s : State) :
    hostReadByte a s = .done (s.mem.byteAt a.toNat) := by
  rw [hostReadByte, memReadByte_ok h, HostResult.ofExcept]

theorem hostReadWord_ok {a : Int} (h : 0 ≤ a ∧ a ≤ 32765) (s : State) :
    hostReadWord a s = .done (s.mem.wordAt a.toNat) := by
  rw [hostReadWord, memReadWord_ok h, HostResult.ofExcept]

/-- On a machine with no recorded fault a write port answers what its primitive does. -/
theorem hostWriteByte_of_none {s : State} (h : s.fault = none) (a v : Int) :
    hostWriteByte a v s = .ofExcept (memWriteByte a v s) :=
  unlessFaulted_of_none h _

theorem hostWriteWord_of_none {s : State} (h : s.fault = none) (a v : Int) :
    hostWriteWord a v s = .ofExcept (memWriteWord a v s) :=
  unlessFaulted_of_none h _

/-- Settles O54: each port hands on its primitive's answer, in bounds and out of bounds. -/
theorem hostMemoryPortsAnswerWhatThePrimitivesAnswer : Obligations.HostMemoryPortsAnswerWhatThePrimitivesAnswer := by
  refine ⟨fun a s => ⟨fun ha => hostReadByte_ok (by omega) s, fun ha => ?_, fun ha => hostReadWord_ok ha s,
    fun ha => ?_⟩, fun a v s hf => ⟨fun ha => ?_, fun ha => ?_, fun ha => ?_, fun ha => ?_⟩⟩
  · rw [hostReadByte, memReadByte_out (by omega), HostResult.ofExcept]
  · rw [hostReadWord, memReadWord_out ha, HostResult.ofExcept]
  · have hb : 0 ≤ a ∧ a ≤ 32767 := by omega
    refine ⟨_, memWriteByte_ok hb v s, ?_, ?_⟩
    · rw [hostWriteByte_of_none hf, memWriteByte_ok hb, HostResult.ofExcept]
    · rw [hostReadByte_ok hb, byteAt_setByte_same, mask8]
  · rw [hostWriteByte_of_none hf, memWriteByte_out (by omega), HostResult.ofExcept]
  · refine ⟨_, memWriteWord_ok ha v s, ?_, ?_⟩
    · rw [hostWriteWord_of_none hf, memWriteWord_ok ha, HostResult.ofExcept]
    · rw [hostReadWord_ok ha, wordAt_setWord, mask24]
  · rw [hostWriteWord_of_none hf, memWriteWord_out ha, HostResult.ofExcept]

end Sys2Proof.Machine
end

section
/-! PROOFS. The statements of 30_encoding.md: decoder and encoder are inverse, the opcode table as a lookup, the phases
of a step, the effective address and what each instruction leaves unchanged. -/

namespace Sys2Proof.Machine

/-! ### Decoder and encoder are inverse (30_encoding.md R37, R38, R40, R50) -/

/-- Each mnemonic's opcode byte and operand name it again, and so does a byte no mnemonic names. -/
theorem instrOf_of_wellFormed {i : Instr} (h : i.wellFormed = true) : instrOf ⟨i.opcode, i.operand⟩ = i := by
  cases i with
  | unassigned op m => exact instrOf_of_unassigned (by simpa [Instr.wellFormed, Instr.opcode] using h)
  | _ => rfl

theorem decodeWord_encodeWord {i : Instr} (h : i.wellFormed = true) : decodeWord (encodeWord i) = i := by
  rw [decodeWord, encodeWord, fieldsOf_wordOfFields, instrOf_of_wellFormed h]

theorem decode_encode {i : Instr} (h : i.wellFormed = true) (rest : List Byte) :
    decode (encode i ++ rest) = .ok (i, rest) := by
  rw [encode, List.cons_append, List.cons_append, List.cons_append, decode_cons, wordOfBytes_bytes,
    decodeWord_encodeWord h, List.nil_append]

theorem encodeWord_decodeWord (w : Word) : encodeWord (decodeWord w) = w := by
  rw [encodeWord, decodeWord_opcode, decodeWord_operand, ← fieldsOf_opcode]
  exact wordOfFields_fieldsOf w

/-- Settles O1: the word's fields are the instruction's opcode and operand, which name the instruction. -/
theorem decodeOfEncodeIsTheInstruction : Obligations.DecodeOfEncodeIsTheInstruction :=
  fun _ rest h => ⟨decode_encode h rest, decodeWord_encodeWord h⟩

/-- Settles O2: the decoded instruction keeps all three fields of the word. -/
theorem everyWordIsTheWordOfItsInstruction : Obligations.EveryWordIsTheWordOfItsInstruction :=
  fun w => ⟨decodeWord_wellFormed w, encodeWord_decodeWord w⟩

/-- Settles O3: the fields as quotients and remainders of the word, and of the word of three bytes. -/
theorem fieldsAreTheFormatsBits : Obligations.FieldsAreTheFormatsBits := by
  refine ⟨fun w => ⟨fieldsOf_opcode_toNat w, ?_, fieldsOf_address_toNat w⟩, fun b0 b1 b2 => ⟨?_, ?_, ?_⟩⟩
  · rw [fieldsOf_x, decide_eq_true_eq]; rfl
  · rw [fieldsOf_opcode, highByte_wordOfBytes]
  · have h1 := b1.isLt; have h2 := b2.isLt
    rw [fieldsOf_x, decide_eq_true_eq, wordOfBytes_toNat]; omega
  · have h2 := b2.isLt
    rw [fieldsOf_address_toNat, wordOfBytes_toNat]; omega

/-- Settles O4: each word is closed, and the decoder evaluates it. -/
theorem specWordsDecode : Obligations.SpecWordsDecode := ⟨rfl, rfl, rfl, rfl, rfl, rfl, rfl, rfl⟩

/-! ### The host's decoder (30_encoding.md R39) -/

theorem hostDecode_of_outside {v : Int} (h : v < 0 ∨ 0xFFFFFF < v) : hostDecode v = .raised (.invalidWord v) := by
  rw [hostDecode, decodeInt, if_neg (by omega)]

theorem hostDecode_of_word {v : Int} (h : 0 ≤ v ∧ v ≤ 0xFFFFFF) : hostDecode v = .done (fieldsOf (mask24 v)) := by
  have hv : mask24 v = BitVec.ofNat 24 v.toNat := by rw [← mask24_nat, Int.toNat_of_nonneg h.1]
  rw [hostDecode, decodeInt, if_pos h, hv]

/-- Settles O5: the range check, and `InvalidWord` is no fault a step can raise. -/
theorem decoderRejectsExactlyValuesOutsideAWord : Obligations.DecoderRejectsExactlyValuesOutsideAWord := by
  refine fun v => ⟨hostDecode_of_outside, hostDecode_of_word, fun s t _ h hf => ?_⟩
  exact absurd (step_fault_raisable h hf) (by simp [Fault.raisableByStep])

/-! ### The opcode table as a lookup (30_encoding.md R47 to R49) -/

/-- No mnemonic stands in the table twice. -/
theorem opcodeTable_nodup : (opcodeTable.map Prod.fst).Nodup := by decide

theorem toList_eq_upperName {key name : String} :
    key.toList = upperName name ↔ key = String.ofList (upperName name) := by
  rw [← String.toList_inj, String.toList_ofList]

/-- The lookup finds exactly the rows under the uppercased name, because no two rows share one. -/
theorem getOpcode_eq_some {name : String} {op : Byte} :
    getOpcode name = some op ↔ (String.ofList (upperName name), op) ∈ opcodeTable := by
  simp only [getOpcode, toList_eq_upperName, Option.map_eq_some_iff]
  constructor
  · rintro ⟨⟨key, v⟩, hfind, rfl⟩
    have hkey : key = String.ofList (upperName name) := by simpa using List.find?_some hfind
    exact hkey ▸ List.mem_of_find?_eq_some hfind
  · intro hmem
    have hsome : (opcodeTable.find? fun row => decide (row.1 = String.ofList (upperName name))).isSome :=
      List.find?_isSome.mpr ⟨_, hmem, decide_eq_true rfl⟩
    obtain ⟨row, hfind⟩ := Option.isSome_iff_exists.mp hsome
    have hkey : row.1 = String.ofList (upperName name) := by simpa using List.find?_some hfind
    have hrow : row = (String.ofList (upperName name), op) :=
      List.inj_on_of_nodup_map opcodeTable_nodup (List.mem_of_find?_eq_some hfind) hmem hkey
    exact ⟨row, hfind, congrArg Prod.snd hrow⟩

theorem hostGetOpcode_eq_done {name : String} {op : Byte} :
    hostGetOpcode name = .done op ↔ getOpcode name = some op := by
  rw [hostGetOpcode]
  cases getOpcode name with
  | none => simp
  | some v => simp

theorem hostGetOpcode_of_none {name : String} (h : getOpcode name = none) :
    hostGetOpcode name = .raised (.unknownMnemonic name) := by
  rw [hostGetOpcode, h]

/-- Settles O6: `getOpcode_eq_some`, and a lookup that finds nothing raises. -/
theorem getOpcodeIsTheTableOfTwentySixEntries : Obligations.GetOpcodeIsTheTableOfTwentySixEntries := by
  refine ⟨fun c => rfl, fun name op => hostGetOpcode_eq_done.trans getOpcode_eq_some, fun name h => ?_⟩
  exact hostGetOpcode_of_none (Option.eq_none_iff_forall_ne_some.mpr fun op => mt hostGetOpcode_eq_done.mpr (h op))

theorem isMnemonic_iff {name : String} : isMnemonic name = true ↔ ∃ op, getOpcode name = some op := by
  simp only [getOpcode_eq_some, isMnemonic, List.any_eq_true, decide_eq_true_eq, toList_eq_upperName, Prod.exists]
  constructor
  · rintro ⟨key, op, hmem, rfl⟩; exact ⟨op, hmem⟩
  · rintro ⟨op, hmem⟩; exact ⟨_, op, hmem, rfl⟩

/-- Settles O7: both calls look for a row under the uppercased name. -/
theorem isMnemonicExactlyWhenGetOpcodeSucceeds : Obligations.IsMnemonicExactlyWhenGetOpcodeSucceeds := by
  refine ⟨fun name => ?_, fun name other h => ?_, rfl⟩
  · simp only [hostGetOpcode_eq_done]; exact isMnemonic_iff
  · rw [hostIsMnemonic, hostIsMnemonic, isMnemonic, isMnemonic, h]

/-! ### The four phases of a step (30_encoding.md R45, R46, R51 to R54) -/

/-- A fetched opcode byte without a handler raises after the advance. -/
theorem step_of_noHandler {s : State} {w : Word} (hw : s.fetches w) (h : hasHandler (w.extractLsb' 16 8) = false) :
    step s = .next { s with pc := s.pc + 3#24, fault := some (.unimplementedOpcode (w.extractLsb' 16 8)) } := by
  have ho : (decodeWord w).opcode = w.extractLsb' 16 8 := decodeWord_opcode w
  rw [← ho] at h ⊢
  rw [step_of_fetches hw, exec_noHandler h]

/-- Settles O8: each phase of the step is one of the three step lemmas. -/
theorem stepFetchesAdvancesDispatchesExecutes : Obligations.StepFetchesAdvancesDispatchesExecutes :=
  fun _ hf => ⟨step_of_fetch_fault hf, fun _ hw => ⟨step_of_noHandler hw, fun _ => step_of_fetches hw⟩⟩

/-- A machine with no recorded fault takes its step. -/
theorem step_answers_next {s : State} (hf : s.fault = none) : ∃ t, step s = .next t := by
  obtain hp | hp := Nat.lt_or_ge 32765 s.pc.toNat
  · exact ⟨_, step_of_fetch_fault hf hp⟩
  · obtain ⟨t, ht, -⟩ := exec_effect (decodeWord (s.mem.wordAt s.pc.toNat)) { s with pc := s.pc + 3#24 }
    exact ⟨t, (step_of_fetch hf hp).trans ht⟩

/-- Settles O12: by the fault record, which decides between `step_answers_next` and `step_of_fault`. -/
theorem stepAnswersNextExactlyWhenNotFaulted : Obligations.StepAnswersNextExactlyWhenNotFaulted := by
  intro s
  cases hf : s.fault with
  | none =>
    obtain ⟨t, ht⟩ := step_answers_next hf
    exact ⟨fun _ => ⟨t, ht⟩, fun f => by simp [ht], fun r => by simp [ht]⟩
  | some f =>
    have hs := step_of_fault hf
    exact ⟨nofun, fun g => by simp [hs], fun r => by simp [hs]⟩

theorem hasHandler_iff_mem {op : Byte} :
    hasHandler op = true ↔ op ∈ [0x00#8, 0x0C#8, 0x18#8, 0x1C#8, 0x28#8, 0x30#8, 0x3C#8] :=
  List.contains_iff_mem

/-- A decoded instruction whose opcode has a handler never records `UnimplementedOpcode`. -/
theorem Effect.fault_ne_unimplemented {s t : State} {i : Instr} {w : Word} (h : Effect s i t) (hw : decodeWord w = i)
    (hh : hasHandler i.opcode = true) (hs : s.fault = none) (op : Byte) :
    t.fault ≠ some (.unimplementedOpcode op) := by
  cases h with
  | readFault | writeFault => simp
  | noHandler _ hn => rw [hn] at hh; cases hh
  | illFormed op' m ho => rw [decodeWord_unassigned hw] at ho; cases ho
  | _ => simp [hs]

/-- Settles O11: the dispatch table's bytes are the seven, and only a byte outside them is recorded. -/
theorem opcodesWithoutHandlerRaiseUnimplemented : Obligations.OpcodesWithoutHandlerRaiseUnimplemented := by
  refine ⟨fun s w hw => ⟨fun hop => ?_, fun hop => ?_⟩, rfl⟩
  · exact step_of_noHandler hw (Bool.eq_false_iff.mpr (mt hasHandler_iff_mem.mp hop))
  · obtain ⟨t, ht, he⟩ := exec_effect (decodeWord w) { s with pc := s.pc + 3#24 }
    have hh : hasHandler (decodeWord w).opcode = true := by
      rw [decodeWord_opcode]; exact hasHandler_iff_mem.mpr hop
    exact ⟨t, (step_of_fetches hw).trans ht, he.fault_ne_unimplemented rfl hh hw.1⟩

/-! ### The first step after reset (70_reset_and_hazards.md R108) -/

@[simp] theorem wordAt_nil (a : Nat) : Memory.wordAt [] a = 0#24 := by
  simp [Memory.wordAt, wordOfBytes, Config.unlistedByte]

/-- Settles O49: the empty memory reads the word 0 at address 0, and LDA loads it into an `A` that is 0. -/
theorem firstStepAfterResetIsLdaZero : Obligations.FirstStepAfterResetIsLdaZero := by
  intro enc
  have hw : (State.created enc).fetches 0x000000#24 := ⟨rfl, Nat.zero_le _, wordAt_nil _⟩
  refine ⟨hw, rfl, ?_⟩
  have hea : effAddr ⟨false, 0#15⟩ { State.created enc with pc := 3#24 } ≤ 32765 := by simp [effAddr]
  have hstep : step (State.created enc) =
      .next { State.created enc with pc := 3#24, a := Memory.wordAt [] (effAddr ⟨false, 0#15⟩ _) } :=
    (step_of_fetches hw).trans (execLda_ok hea)
  rw [hstep, wordAt_nil]; rfl

/-! ### A placed word (logs 8, 9) -/

theorem decodeTableWord_of_lt {w : Nat} (h : w < 2 ^ 24) :
    decodeTableWord 24 w = some (decodeWord (BitVec.ofNat 24 w)) := by
  simp only [decodeTableWord, Nat.mod_eq_of_lt h, if_pos h, decode_cons, wordOfBytes_bytes]

/-- With `PC` inside memory the word is stored there. -/
theorem withFetchWord_of_le {s : State} {w : Nat} (hp : s.pc.toNat ≤ 32765) (hw : w < 2 ^ 24) :
    s.withFetchWord 24 w = { s with mem := s.mem.setWord s.pc.toNat (BitVec.ofNat 24 w) } := by
  have hb : inBounds (s.reg .PC).toNat .word = true := (inBounds_word _).mpr ⟨by omega, by rw [reg_PC]; omega⟩
  rw [State.withFetchWord, placeAtPc, if_pos hb, Nat.mod_eq_of_lt hw, reg_PC]

/-- Settles O53: the word stored at `PC` is the word fetched there, and a word store touches three bytes. -/
theorem placedWordIsRunByTheNextStep : Obligations.PlacedWordIsRunByTheNextStep := by
  intro s w hf hp hw
  rw [withFetchWord_of_le hp hw]
  refine ⟨decodeTableWord_of_lt hw, ?_, fun b hb => byteAt_setWord_of_outside _ _ _ _ hb⟩
  exact step_of_fetches ⟨hf, hp, wordAt_setWord ..⟩

/-! ### The effective address and the frames (30_encoding.md R43, R56) -/

/-- Settles O15: the accesses are checked at the sum itself, J stores it modulo 2^24, and no instruction writes `X`. -/
theorem effectiveAddressIsTheUnreducedSum : Obligations.EffectiveAddressIsTheUnreducedSum := by
  refine ⟨fun a s => ⟨rfl, rfl⟩, effAddr_le, fun m s hm => ⟨fun i hi => ?_, execSta_out hm⟩, execJ_eq,
    fun i s t h => (change_of_exec h).reg_eq .X (destReg_ne_X i)⟩
  exact exec_read_out (by simpa [Instr.readsWord] using hi) hm

/-- Settles O37: STA has no destination register, and its memory is kept or is one word set at `EA`. -/
theorem storeFrame : Obligations.StoreFrame := by
  intro m s t h
  have hc := change_of_exec h
  refine ⟨hc.reg_eq .A nofun, hc.reg_eq .X nofun, hc.reg_eq .L nofun, hc.reg_eq .PC nofun, hc.reg_eq .SW nofun,
    hc.swEnc_eq, fun b hb => ?_, fun hm b => ?_⟩
  · obtain hmem | ⟨m', hi, hmem⟩ := hc.mem_eq_or_store
    · rw [hmem]
    · cases hi; rw [hmem]; exact byteAt_setWord_of_outside _ _ _ _ hb
  · rw [execSta_out hm] at h; cases h; rfl

/-- Settles O38: `exec_noHandler` gives the whole next state. -/
theorem unhandledInstructionsFrame : Obligations.UnhandledInstructionsFrame := by
  intro i s t hh h
  rw [exec_noHandler hh] at h
  cases h
  exact ⟨rfl, rfl, rfl, rfl, rfl, rfl, fun _ => rfl⟩

end Sys2Proof.Machine
end

section
/-! PROOFS. The statements of 40_load_store.md: the words that decode to LDA and STA, the exact state after each, and the
fault an effective address past the last word records. -/

namespace Sys2Proof.Machine

/-! ### The words of a mnemonic, by their opcode byte (30_encoding.md R37, R47) -/

/-- The opcode byte and the operand fields of a word fix the instruction it decodes to. -/
theorem decodeWord_of_highByte {w : Word} {i : Instr} (hwf : i.wellFormed = true) (ho : highByte w = i.opcode)
    (hm : (fieldsOf w).operand = i.operand) : decodeWord w = i := by
  have hf : fieldsOf w = ⟨i.opcode, i.operand⟩ := ho ▸ hm ▸ rfl
  rw [decodeWord, hf, instrOf_of_wellFormed hwf]

/-- Masking out the operand fields keeps the opcode byte. -/
theorem highByte_and_opcodeMask (w : Word) : highByte (w &&& 0xFF0000#24) = highByte w := by
  have hmask : highByte 0xFF0000#24 = BitVec.allOnes 8 := rfl
  calc highByte (w &&& 0xFF0000#24) = highByte w &&& highByte 0xFF0000#24 := BitVec.extractLsb'_and
    _ = highByte w := by rw [hmask, BitVec.and_allOnes]

/-- Every word that matches an instruction's opcode under the opcode mask decodes to it with the word's own operand. -/
theorem decodeWord_of_opcodeMask {w v : Word} {i : Instr} (h : w &&& 0xFF0000#24 = v) (hwf : i.wellFormed = true)
    (ho : highByte v = i.opcode) (hm : (fieldsOf w).operand = i.operand) : decodeWord w = i := by
  refine decodeWord_of_highByte hwf ?_ hm
  rw [← ho, ← h, highByte_and_opcodeMask]

/-! ### LDA and STA (40_load_store.md R57, R58) -/

/-- Settles O22: words with opcode 0x00 are LDA, and the read is in bounds or it is the fault. -/
theorem ldaLoadsTheWordAtTheEffectiveAddress : Obligations.LdaLoadsTheWordAtTheEffectiveAddress :=
  ⟨fun _ hw => decodeWord_of_opcodeMask hw rfl rfl rfl, fun _ _ => ⟨execLda_ok, exec_read_out (.inl rfl)⟩⟩

/-- Settles O23: in bounds the next state is the one word set at `EA`, which fixes every byte of memory. -/
theorem staStoresTheAccumulator : Obligations.StaStoresTheAccumulator := by
  refine ⟨fun _ hw => decodeWord_of_opcodeMask hw rfl rfl rfl,
    fun m s => ⟨fun hm => ⟨_, execSta_ok hm, ?_⟩, execSta_out⟩⟩
  exact ⟨rfl, wordAt_setWord .., byteAt_setWord_high .., byteAt_setWord_mid .., byteAt_setWord_low ..,
    fun b hb => byteAt_setWord_of_outside _ _ _ _ hb⟩

end Sys2Proof.Machine
end

section
/-! PROOFS. The statements of 41_arith_compare.md: ADD and SUB modulo 2^24, what COMP stores for each outcome, and the
two pairs of instructions whose effects meet, ADD with SUB and COMP with JEQ. -/

namespace Sys2Proof.Machine

/-! ### Word arithmetic, as the spec's formulas on natural numbers (41_arith_compare.md R59, R60) -/

theorem ofNat_sum_mod (a b : Word) : BitVec.ofNat 24 ((a.toNat + b.toNat) % 2 ^ 24) = a + b := by
  rw [← BitVec.toNat_add, BitVec.ofNat_toNat, BitVec.setWidth_eq]

/-- R60 adds 2^24 before it subtracts, so that no difference is negative. -/
theorem ofNat_diff_mod (a b : Word) : BitVec.ofNat 24 ((a.toNat + 2 ^ 24 - b.toNat) % 2 ^ 24) = a - b := by
  have hb : b.toNat ≤ 2 ^ 24 := b.isLt.le
  rw [Nat.add_sub_assoc hb, Nat.add_comm, ← BitVec.toNat_sub, BitVec.ofNat_toNat, BitVec.setWidth_eq]

/-! ### ADD and SUB -/

/-- Settles O24: words with opcode 0x18 are ADD, and word addition is the sum modulo 2^24. -/
theorem addStoresTheSumModulo : Obligations.AddStoresTheSumModulo := by
  refine ⟨fun _ hw => decodeWord_of_opcodeMask hw rfl rfl rfl,
    fun m s => ⟨fun hm => ?_, exec_read_out (.inr (.inl rfl))⟩⟩
  rw [ofNat_sum_mod]
  exact execAdd_ok hm

/-- Settles O25: words with opcode 0x1C are SUB, and word subtraction is R60's difference modulo 2^24. -/
theorem subStoresTheDifferenceModulo : Obligations.SubStoresTheDifferenceModulo := by
  refine ⟨fun _ hw => decodeWord_of_opcodeMask hw rfl rfl rfl,
    fun m s => ⟨fun hm => ?_, exec_read_out (.inr (.inr (.inl rfl)))⟩⟩
  rw [ofNat_diff_mod]
  exact execSub_ok hm

/-! A write of `A` changes neither the effective address nor the word there, so only the new `A` differs. -/

theorem execSub_of_a {m : Operand} {s : State} (hm : effAddr m s ≤ 32765) (v : Word) :
    exec (.sub m) { s with a := v } = .next { s with a := v - s.mem.wordAt (effAddr m s) } :=
  execSub_ok (s := { s with a := v }) hm

theorem execAdd_of_a {m : Operand} {s : State} (hm : effAddr m s ≤ 32765) (v : Word) :
    exec (.add m) { s with a := v } = .next { s with a := v + s.mem.wordAt (effAddr m s) } :=
  execAdd_ok (s := { s with a := v }) hm

/-- Settles O32: the second instruction reads the same word, since neither writes `X` or memory, and addition and
subtraction of words cancel. -/
theorem addAndSubUndoEachOther : Obligations.AddAndSubUndoEachOther := by
  refine fun m s hm => ⟨⟨_, execAdd_ok hm, ?_⟩, ⟨_, execSub_ok hm, ?_⟩⟩
  · rw [execSub_of_a hm, BitVec.add_sub_cancel]
  · rw [execAdd_of_a hm, BitVec.sub_add_cancel]

/-! ### The comparison (41_arith_compare.md R61, R62) -/

theorem compareSentinel_of_lt {a m : Word} (h : a.toNat < m.toNat) (e : SwEnc) : compareSentinel e a m = e.swLt :=
  if_pos h

@[simp] theorem compareSentinel_self (e : SwEnc) (a : Word) : compareSentinel e a a = e.swEq := by
  rw [compareSentinel, if_neg (Nat.lt_irrefl _), if_pos rfl]

theorem compareSentinel_of_gt {a m : Word} (h : m.toNat < a.toNat) (e : SwEnc) : compareSentinel e a m = e.swGt := by
  rw [compareSentinel, if_neg h.asymm, if_neg h.ne']

/-- With distinct sentinels, unequal words never compare as `SW_EQ` (D1). -/
theorem compareSentinel_ne_swEq {e : SwEnc} (he : e.distinct = true) {a m : Word} (h : a ≠ m) :
    compareSentinel e a m ≠ e.swEq := by
  simp only [SwEnc.distinct, Bool.and_eq_true, decide_eq_true_eq] at he
  obtain ⟨⟨hlt, -⟩, hgt⟩ := he
  obtain hc | hc := Nat.lt_or_gt_of_ne fun hn => h (BitVec.eq_of_toNat_eq hn)
  · rw [compareSentinel_of_lt hc]; exact hlt
  · rw [compareSentinel_of_gt hc]; exact hgt.symm

/-- Settles O26: words with opcode 0x28 are COMP, and each outcome of the comparison stores its own sentinel. -/
theorem compWritesTheSentinelOfTheUnsignedComparison : Obligations.CompWritesTheSentinelOfTheUnsignedComparison := by
  refine ⟨fun _ hw => decodeWord_of_opcodeMask hw rfl rfl rfl,
    fun m s => ⟨fun hm => ?_, exec_read_out (.inr (.inr (.inr rfl)))⟩⟩
  rw [execComp_ok hm]
  refine ⟨fun hlt => ?_, fun heq => ?_, fun hgt => ?_⟩
  · rw [compareSentinel_of_lt hlt]
  · rw [← heq, compareSentinel_self]
  · rw [compareSentinel_of_gt hgt]

/-- Settles O33: COMP leaves `SW_EQ` in `SW` exactly on equality, which is what JEQ tests, and JEQ's
target depends on no register COMP writes. -/
theorem jeqAfterCompIsTakenExactlyOnEqual : Obligations.JeqAfterCompIsTakenExactlyOnEqual := by
  refine fun m n s hd hm => ⟨_, execComp_ok hm, fun heq => ?_, fun hne => ?_⟩
  · rw [← heq, compareSentinel_self]
    exact execJeq_taken rfl
  · exact execJeq_not_taken (compareSentinel_ne_swEq hd hne)

end Sys2Proof.Machine
end

section
/-! PROOFS. The statements of 42_jumps.md: the words and the exact effects of J and JEQ, and the loop `J p` at address
`p`, which is the identity on the state for one step and for every budget. -/

namespace Sys2Proof.Machine

/-! ### J and JEQ (42_jumps.md R63, R64) -/

/-- The spec's `mask24(EA)`, written as a remainder, is the word of `EA`. -/
theorem ofNat_mod_word (n : Nat) : BitVec.ofNat 24 (n % 2 ^ 24) = BitVec.ofNat 24 n :=
  BitVec.eq_of_toNat_eq (by simp only [BitVec.toNat_ofNat, Nat.mod_mod])

/-- A write of `PC` changes neither JEQ's test nor its target. -/
theorem execJeq_taken_of_pc {m : Operand} {s : State} (h : s.sw = s.swEnc.swEq) (v : Word) :
    exec (.jeq m) { s with pc := v } = .next { s with pc := BitVec.ofNat 24 (effAddr m s) } :=
  execJeq_taken (s := { s with pc := v }) h

/-- Settles O28: each branch is one lemma of JEQ, and a taken JEQ keeps `SW`, so a second one takes the same branch. -/
theorem jeqJumpsExactlyWhenSwIsEqual : Obligations.JeqJumpsExactlyWhenSwIsEqual := by
  refine ⟨fun _ hw => decodeWord_of_opcodeMask hw rfl rfl rfl, fun m s => ?_, fun m n s t u ht hu => ?_⟩
  · rw [ofNat_mod_word]
    exact ⟨execJeq_taken, execJeq_not_taken⟩
  · by_cases hs : s.sw = s.swEnc.swEq
    · rw [execJeq_taken hs] at ht; cases ht
      rw [execJeq_taken_of_pc hs] at hu; cases hu
      exact ⟨rfl, fun _ => rfl, absurd hs⟩
    · rw [execJeq_not_taken hs] at ht; cases ht
      rw [execJeq_not_taken hs] at hu; cases hu
      exact ⟨rfl, fun h => absurd h hs, fun _ => rfl⟩

/-! ### The idle loop (42_jumps.md R63; 60_exceptions.md R105) -/

/-- The word `J p` without indexing: for an address below 2^15, the opcode byte and `p` do not overlap. -/
theorem encodeWord_j_address {p : Word} (hp : p.toNat < 2 ^ 15) :
    encodeWord (.j ⟨false, p.setWidth 15⟩) = 0x3C0000#24 + p := by
  apply BitVec.eq_of_toNat_eq
  rw [encodeWord, wordOfFields_toNat, BitVec.toNat_add]
  simp only [Instr.opcode, Instr.operand, BitVec.toNat_setWidth, BitVec.toNat_ofNat, Bool.false_eq_true, if_false]
  omega

/-- The effective address of `p` without indexing is `p`, if it fits the address field. -/
theorem effAddr_direct {p : Word} (hp : p.toNat < 2 ^ 15) (s : State) : effAddr ⟨false, p.setWidth 15⟩ s = p.toNat := by
  simpa [effAddr] using hp

/-- A step of `J p` at `p` is the identity: the jump overwrites the advanced `PC` with the `PC` it was fetched at. -/
theorem step_idle {s : State} (h : s.fetches (0x3C0000#24 + s.pc)) : step s = .next s := by
  have hle : s.pc.toNat ≤ 32765 := h.2.1
  have hp : s.pc.toNat < 2 ^ 15 := by omega
  rw [step_of_fetches h, ← encodeWord_j_address hp, decodeWord_encodeWord rfl, execJ_eq, effAddr_direct hp,
    BitVec.ofNat_toNat, BitVec.setWidth_eq]

/-- Settles O27: words with opcode 0x3C are J, its target is `mask24(EA)`, and `J p` at `p` is the idle step. -/
theorem jStoresTheTargetInPc : Obligations.JStoresTheTargetInPc := by
  refine ⟨fun _ hw => decodeWord_of_opcodeMask hw rfl rfl rfl, fun m s => ?_, fun _ => step_idle⟩
  rw [ofNat_mod_word]
  exact execJ_eq m s

/-! ### Runs (70_reset_and_hazards.md R111, R112) -/

theorem run_zero {s : State} (hf : s.fault = none) : run 0 s = .completed s := by
  rw [run, hf]

/-- A run spends one step of its budget on the step of a machine that has not faulted. -/
theorem run_succ_of_next {s t : State} (hf : s.fault = none) (h : step s = .next t) (n : Nat) :
    run (n + 1) s = run n t := by
  rw [run, hf, h]

/-- Settles O52: by induction on the budget, each step of which is the idle step. -/
theorem idleLoopCompletesEveryBudget : Obligations.IdleLoopCompletesEveryBudget := by
  intro s n h
  have hf : s.fault = none := h.1
  induction n with
  | zero => exact run_zero hf
  | succ n ih => rw [run_succ_of_next hf (step_idle h), ih]

end Sys2Proof.Machine
end

section
/-! PROOFS. The statements of 43_table_only.md: an opcode byte without a handler raises `UnimplementedOpcode` whatever
its operand, whether a mnemonic names it (AND to WD) or none does. -/

namespace Sys2Proof.Machine

/-! ### Table-only mnemonics (43_table_only.md R66 to R84) -/

/-- The lookup ignores the case of the name (30_encoding.md R48). -/
theorem getOpcode_congr {name other : String} (h : upperName name = upperName other) :
    getOpcode name = getOpcode other := by
  rw [getOpcode, getOpcode, h]

/-- The rule of a table-only mnemonic follows from four facts about it: its constructor carries the opcode byte and any
operand, the byte has no handler, the table gives the byte for one spelling, and the other spelling is the same name. -/
theorem tableOnlyRule_of_noHandler {mk : Operand → Instr} {op : Byte} {lower upper : String}
    (hmk : ∀ m, (mk m).wellFormed = true ∧ (mk m).opcode = op ∧ (mk m).operand = m) (hh : hasHandler op = false)
    (hrow : getOpcode lower = some op) (hcase : upperName upper = upperName lower) :
    TableOnlyRule mk op lower upper := by
  refine ⟨fun m s => ?_, fun w hop => ?_, fun s w hw hop => ?_, hrow,
    isMnemonic_iff.mpr ⟨op, (getOpcode_congr hcase).trans hrow⟩⟩
  · obtain ⟨-, rfl, -⟩ := hmk m
    exact exec_noHandler hh
  · obtain ⟨hwf, ho, hm⟩ := hmk (fieldsOf w).operand
    exact decodeWord_of_highByte hwf (hop.trans ho.symm) hm.symm
  · subst hop
    exact step_of_noHandler hw hh

/-- Settles O29: `tableOnlyRule_of_noHandler` for each of the ten. -/
theorem tableOnlyAndToOrRaiseUnimplemented : Obligations.TableOnlyAndToOrRaiseUnimplemented := by
  refine ⟨?and, ?div, ?jgt, ?jlt, ?jsub, ?ldch, ?ldl, ?ldx, ?mul, ?or⟩
  all_goals exact tableOnlyRule_of_noHandler (fun _ => ⟨rfl, rfl, rfl⟩) rfl (by decide) (by decide)

/-- Settles O30: `tableOnlyRule_of_noHandler` for each of the nine. -/
theorem tableOnlyRdToWdRaiseUnimplemented : Obligations.TableOnlyRdToWdRaiseUnimplemented := by
  refine ⟨?rd, ?rsub, ?stch, ?stl, ?stsw, ?stx, ?td, ?tix, ?wd⟩
  all_goals exact tableOnlyRule_of_noHandler (fun _ => ⟨rfl, rfl, rfl⟩) rfl (by decide) (by decide)

/-! ### Unassigned opcode bytes (43_table_only.md R85, 92_eei_decisions.md D4) -/

/-- R85's list of assigned bytes is the opcode table's column, in another order. -/
theorem assignedOpcodes_perm : assignedOpcodes.Perm (opcodeTable.map Prod.snd) := by decide

/-- The table's own spelling of a mnemonic is already in upper case. -/
theorem upperName_of_mem_opcodeTable : ∀ row ∈ opcodeTable, upperName row.1 = row.1.toList := by decide

/-- Every row is found under its own name. -/
theorem getOpcode_of_mem {name : String} {op : Byte} (h : (name, op) ∈ opcodeTable) : getOpcode name = some op := by
  rwa [getOpcode_eq_some, upperName_of_mem_opcodeTable _ h, String.ofList_toList]

/-- An opcode byte is assigned exactly when some string names it. -/
theorem mem_assignedOpcodes_iff {op : Byte} : op ∈ assignedOpcodes ↔ ∃ name, getOpcode name = some op := by
  rw [assignedOpcodes_perm.mem_iff, List.mem_map]
  constructor
  · rintro ⟨⟨name, op⟩, hrow, rfl⟩; exact ⟨name, getOpcode_of_mem hrow⟩
  · rintro ⟨name, h⟩; exact ⟨_, getOpcode_eq_some.mp h, rfl⟩

/-- The two low bits of a mnemonic's opcode byte are 00. -/
theorem toNat_mod_four_of_assigned : ∀ op ∈ assignedOpcodes, op.toNat % 4 = 0 := by decide

theorem handlerOpcodes_subset_assigned : handlerOpcodes ⊆ assignedOpcodes := by decide

theorem hasHandler_of_unassigned {op : Byte} (h : op ∉ assignedOpcodes) : hasHandler op = false :=
  Bool.eq_false_iff.mpr fun hh => h (handlerOpcodes_subset_assigned (List.contains_iff_mem.mp hh))

/-- Settles O31: a byte is assigned exactly when a name has it, and every byte with a handler is assigned; the
`unassigned` term raises its byte even where it is ill-formed (log 11). -/
theorem unassignedOpcodeBytesRaiseUnimplemented : Obligations.UnassignedOpcodeBytesRaiseUnimplemented := by
  refine ⟨fun op m s => raiseUnimplemented_eq op s, fun op => ⟨?_, mt (toNat_mod_four_of_assigned op)⟩,
    fun w => instrOf_of_unassigned (f := fieldsOf w),
    fun _ _ hw hop => step_of_noHandler hw (hasHandler_of_unassigned hop)⟩
  simp only [mem_assignedOpcodes_iff, not_exists, ne_eq, hostGetOpcode_eq_done]

end Sys2Proof.Machine
end

section
/-! PROOFS. The statements of 60_exceptions.md: which fault a step records and the state it leaves, what still changes
a faulted machine, and runs as sequential steps that stop at a fault. -/

namespace Sys2Proof.Machine

/-! ### The state a fault leaves (60_exceptions.md R94) -/

/-- An instruction that records a fault does nothing else. -/
theorem Change.eq_of_fault {s t : State} {i : Instr} {f : Fault} (h : Change s i t) (hs : s.fault = none)
    (hf : t.fault = some f) : t = { s with fault := some f } := by
  cases h with
  | nothing => rw [hs] at hf; cases hf
  | reg n v _ => rw [setReg_fault, hs] at hf; cases hf
  | store m _ => rw [hs] at hf; cases hf
  | fault g => cases hf; rfl

/-- Settles O41: a fetch fault comes before the advance, and an instruction that faults only adds its record. -/
theorem faultLeavesTheExactState : Obligations.FaultLeavesTheExactState := by
  intro s t f hs h hf
  obtain ⟨-, ⟨hp, rfl⟩ | ⟨hp, i, -, he⟩⟩ := step_cases h
  · cases hf
    exact ⟨fun _ => rfl, fun hle => absurd hp hle.not_gt⟩
  · exact ⟨fun hlt => absurd hlt hp.not_gt, fun _ => he.change.eq_of_fault hs hf⟩

/-! ### The cause of a fault (60_exceptions.md R87, R88, R96) -/

/-- A decoded instruction faults at dispatch, or at the one access its handler makes. -/
theorem Effect.fault_cause {s t : State} {i : Instr} {w : Word} {f : Fault} (h : Effect s i t)
    (hw : decodeWord w = i) (hs : s.fault = none) (hf : t.fault = some f) :
    (hasHandler i.opcode = false ∧ f = .unimplementedOpcode i.opcode) ∨
      ∃ m, 32765 < effAddr m s ∧
        ((Instr.readsWord i m ∧ f = .outOfBounds (effAddr m s) .word .dataRead) ∨
         (i = .sta m ∧ f = .outOfBounds (effAddr m s) .word .dataWrite)) := by
  cases h with
  | noHandler _ hh => cases hf; exact .inl ⟨hh, rfl⟩
  | readFault _ m hi hm => cases hf; exact .inr ⟨m, hm, .inl ⟨hi, rfl⟩⟩
  | writeFault m hm => cases hf; exact .inr ⟨m, hm, .inr ⟨rfl, rfl⟩⟩
  | illFormed op m hh => rw [decodeWord_unassigned hw] at hh; cases hh
  | _ => rw [hs] at hf; cases hf

/-- Settles O42: the fetch is checked first; after it, `Effect.fault_cause` for the fetched word. -/
theorem stepFaultHasItsCause : Obligations.StepFaultHasItsCause := by
  refine fun s t f hs h hf => ⟨fun hp => ?_, fun w hw => ?_⟩
  · rw [step_of_fetch_fault hs hp] at h
    cases h; cases hf; rfl
  · rw [step_of_fetches hw] at h
    have hop : (decodeWord w).opcode = w.extractLsb' 16 8 := decodeWord_opcode w
    have hcause := (effect_of_exec h).fault_cause rfl hs hf
    simpa [Instr.readsWord, hop] using hcause

/-! ### Runs (70_reset_and_hazards.md R111, R112) -/

/-- Every run of a faulted machine stops before its first step (log 12). -/
theorem run_of_fault {s : State} {f : Fault} (hf : s.fault = some f) (n : Nat) : run n s = .faulted f s := by
  cases n with
  | zero => rw [run, hf]
  | succ n => rw [run, hf]

/-- The end of a run that may spend `n` more steps: a completed run goes on, a stopped one stays where it stopped. -/
def RunEnd.thenRun (n : Nat) : RunEnd → RunEnd
  | .completed t => run n t
  | .faulted f t => .faulted f t
  | .refused r   => .refused r

/-- A budget may be spent in two parts. -/
theorem run_add (m n : Nat) (s : State) : run (m + n) s = (run m s).thenRun n := by
  induction m generalizing s with
  | zero =>
    cases hf : s.fault with
    | none => rw [run_zero hf, Nat.zero_add, RunEnd.thenRun]
    | some f => rw [run_of_fault hf, run_of_fault hf, RunEnd.thenRun]
  | succ m ih =>
    cases hf : s.fault with
    | none =>
      obtain ⟨t, ht⟩ := step_answers_next hf
      rw [Nat.succ_add, run_succ_of_next hf ht, run_succ_of_next hf ht, ih]
    | some f => rw [run_of_fault hf, run_of_fault hf, RunEnd.thenRun]

theorem run_add_of_completed {m : Nat} {s t : State} (h : run m s = .completed t) (n : Nat) :
    run (m + n) s = run n t := by
  rw [run_add, h, RunEnd.thenRun]

theorem run_add_of_faulted {m : Nat} {s t : State} {f : Fault} (h : run m s = .faulted f t) (n : Nat) :
    run (m + n) s = .faulted f t := by
  rw [run_add, h, RunEnd.thenRun]

/-- A completed run ends unfaulted: the run of no further step from its end completes there too. -/
theorem fault_eq_none_of_run_completed {n : Nat} {s t : State} (h : run n s = .completed t) : t.fault = none := by
  have hrun : run 0 t = .completed t := by rw [← run_add_of_completed h, Nat.add_zero, h]
  cases hf : t.fault with
  | none => rfl
  | some f => rw [run_of_fault hf] at hrun; cases hrun

/-- Settles O51: a step spends one of the budget, a faulted machine stops its run, and `run_add`. -/
theorem runIsSequentialSteps : Obligations.RunIsSequentialSteps := by
  refine ⟨fun s => run_zero, fun n s t hs h => ?_, fun m n s t h => run_add_of_completed h n,
    fun m n s t f h => run_add_of_faulted h n⟩
  have hrun : run (n + 1) s = run n t := run_succ_of_next hs h n
  exact ⟨fun _ => hrun, fun f hf => hrun.trans (run_of_fault hf n)⟩

/-! ### A faulted machine (60_exceptions.md R95, R98; log 5) -/

theorem fault_eq_none_of_loadProgram {ws : List Int} {a : Int} {s t : State} (h : loadProgram ws a s = .done t) :
    s.fault = none := by
  unfold loadProgram at h
  split at h
  · exact (unlessFaulted_eq_done h).1
  · cases h

theorem fault_eq_none_of_hostSetReg {name : String} {v : Int} {s t : State} (h : hostSetReg name v s = .done t) :
    s.fault = none := by
  unfold hostSetReg at h
  split at h
  · exact (unlessFaulted_eq_done h).1
  · cases h

/-- A host call other than `reset()` that was done was done to a machine with no recorded fault. -/
theorem fault_eq_none_of_apply {c : HostAction} {s t : State} (hc : c ≠ .reset) (h : c.apply s = .done t) :
    s.fault = none := by
  cases c with
  | reset => exact absurd rfl hc
  | loadProgram ws a => exact fault_eq_none_of_loadProgram h
  | setReg name v => exact fault_eq_none_of_hostSetReg h
  | writeByte a v => exact (unlessFaulted_eq_done h).1
  | writeWord a v => exact (unlessFaulted_eq_done h).1

/-- Settles O43: neither a step, nor a run, nor a host call but `reset()` leaves a recorded fault. -/
theorem recordedFaultEndsTheRun : Obligations.RecordedFaultEndsTheRun := by
  refine ⟨fun s f hf => ⟨step_of_fault hf, run_of_fault hf, fun c t hc h => ?_, fun t h => ?_⟩,
    fun n s t h => fault_eq_none_of_run_completed h⟩
  · rw [fault_eq_none_of_apply hc h] at hf; cases hf
  · cases h; rfl

end Sys2Proof.Machine
end

section
/-! PROOFS. The statements of 70_reset_and_hazards.md: reset gives the created machine, a launch writes its image and sets
PC, and every state that steps and host calls reach meets the invariant. -/

namespace Sys2Proof.Machine

/-! ### The bytes of an image (70_reset_and_hazards.md R109) -/

/-- Each word of the image takes the three bytes after those of the word before it. -/
theorem byteAt_setWords_of_outside (ws : List Int) (m : Memory) {a b : Nat} (h : b < a ∨ a + 3 * ws.length ≤ b) :
    (m.setWords a ws).byteAt b = m.byteAt b := by
  induction ws generalizing m a with
  | nil => rfl
  | cons w ws ih =>
    rw [List.length_cons] at h
    calc ((m.setWord a (mask24 w)).setWords (a + 3) ws).byteAt b
        = (m.setWord a (mask24 w)).byteAt b := ih _ (by omega)
      _ = m.byteAt b := byteAt_setWord_of_outside _ _ _ _ (by omega)

theorem wordAt_setWords_of_before (ws : List Int) (m : Memory) {a b : Nat} (h : b + 3 ≤ a) :
    (m.setWords a ws).wordAt b = m.wordAt b := by
  unfold Memory.wordAt
  rw [byteAt_setWords_of_outside _ _ (.inl (by omega)), byteAt_setWords_of_outside _ _ (.inl (by omega)),
    byteAt_setWords_of_outside _ _ (.inl (by omega))]

/-- A word of the image is read back: the words written after it stand behind it. -/
theorem wordAt_setWords {ws : List Int} {i : Nat} {w : Int} (h : ws[i]? = some w) (m : Memory) (a : Nat) :
    (m.setWords a ws).wordAt (a + 3 * i) = mask24 w := by
  induction ws generalizing m a i with
  | nil => cases h
  | cons v ws ih =>
    cases i with
    | zero =>
      cases h
      exact (wordAt_setWords_of_before ws _ le_rfl).trans (wordAt_setWord ..)
    | succ i =>
      have haddr : a + 3 * (i + 1) = a + 3 + 3 * i := by omega
      rw [haddr]
      exact ih h _ _

/-! ### Launch (70_reset_and_hazards.md R109, R110) -/

theorem launchAdmitted_iff {ws : List Int} {a : Int} :
    launchAdmitted ws a = true ↔
      (∀ w ∈ ws, 0 ≤ w ∧ w ≤ 0xFFFFFF) ∧ 0 ≤ a ∧ a + 3 * ws.length ≤ 32768 := by
  rw [launchAdmitted, Bool.and_eq_true_iff, List.all_eq_true]
  simp only [decide_eq_true_eq]
  rfl

theorem loadProgram_of_admitted {ws : List Int} {a : Int} {s : State} (h : launchAdmitted ws a = true)
    (hf : s.fault = none) :
    loadProgram ws a s = .done { s with mem := s.mem.setWords a.toNat ws, pc := mask24 a } :=
  (if_pos h).trans (unlessFaulted_of_none hf _)

/-- A launch that was done was admitted, on a machine with no recorded fault. -/
theorem loadProgram_inv {ws : List Int} {a : Int} {s t : State} (h : loadProgram ws a s = .done t) :
    launchAdmitted ws a = true ∧ t = { s with mem := s.mem.setWords a.toNat ws, pc := mask24 a } := by
  have hf : s.fault = none := fault_eq_none_of_loadProgram h
  by_cases hl : launchAdmitted ws a = true
  · rw [loadProgram_of_admitted hl hf] at h
    cases h
    exact ⟨hl, rfl⟩
  · rw [loadProgram, if_neg hl] at h
    cases h

/-- Settles O50: an admitted launch sets the image's words, whose bytes are then read back, and `PC`. -/
theorem loadProgramWritesTheImageAndSetsPc : Obligations.LoadProgramWritesTheImageAndSetsPc := by
  refine fun ws a s hf => ⟨fun h => ?_, fun h => if_neg (mt launchAdmitted_iff.mp h)⟩
  exact ⟨_, loadProgram_of_admitted (launchAdmitted_iff.mpr h) hf, fun i w hw => wordAt_setWords hw _ _,
    fun b hb => byteAt_setWords_of_outside ws _ hb, rfl⟩

/-! ### Reset (70_reset_and_hazards.md R107) -/

/-- Settles O48: `reset()` answers the created machine, whose registers are 0 and whose memory lists no byte. -/
theorem resetZeroesRegistersAndMemory : Obligations.ResetZeroesRegistersAndMemory := by
  intro s t h
  cases h
  exact ⟨fun n => by cases n <;> rfl, byteAt_nil, rfl, rfl⟩

/-! ### Reachable states (70_reset_and_hazards.md R106, R113; log 2) -/

/-- A register set that was done set one register of the model. -/
theorem hostSetReg_inv {name : String} {v : Int} {s t : State} (h : hostSetReg name v s = .done t) :
    ∃ n, regNamed name = some n ∧ t = s.setReg n v := by
  cases hn : regNamed name with
  | none => rw [hostSetReg, hn] at h; cases h
  | some n =>
    rw [hostSetReg_of_named hn (fault_eq_none_of_hostSetReg h)] at h
    cases h
    exact ⟨n, rfl, rfl⟩

/-- No host call writes the encoding of the sentinels. -/
theorem apply_swEnc {c : HostAction} {s t : State} (h : c.apply s = .done t) : t.swEnc = s.swEnc := by
  cases c with
  | reset => cases h; rfl
  | loadProgram ws a => obtain ⟨-, rfl⟩ := loadProgram_inv h; rfl
  | setReg name v => obtain ⟨n, -, rfl⟩ := hostSetReg_inv h; exact setReg_swEnc s n v
  | writeByte a v =>
    obtain ⟨-, hw⟩ := unlessFaulted_eq_done h
    obtain ⟨-, rfl⟩ := memWriteByte_inv (ofExcept_eq_done hw)
    rfl
  | writeWord a v =>
    obtain ⟨-, hw⟩ := unlessFaulted_eq_done h
    obtain ⟨-, rfl⟩ := memWriteWord_inv (ofExcept_eq_done hw)
    rfl

theorem Reachable.swEnc_eq {enc : SwEnc} {s : State} (h : Reachable enc s) : s.swEnc = enc := by
  induction h with
  | created => rfl
  | stepped s t _ hstep ih => exact (step_swEnc hstep).trans ih
  | host c s t _ hcall ih => exact (apply_swEnc hcall).trans ih

/-- The invariant holds at creation, and every step and every host call keeps it. -/
theorem Reachable.inv {enc : SwEnc} {s : State} (h : Reachable enc s) (he : enc.distinct = true) : s.Inv := by
  induction h with
  | created => exact .created he
  | stepped s t _ hstep ih => exact stepKeepsTheInvariant s t ih hstep
  | host c s t _ hcall ih => exact hostCallKeepsTheInvariant c s t ih hcall

/-- Settles O47: `Reachable.inv` and `Reachable.swEnc_eq`. -/
theorem reachableStatesMeetTheInvariant : Obligations.ReachableStatesMeetTheInvariant :=
  fun _ _ he h => ⟨h.inv he, h.swEnc_eq⟩

end Sys2Proof.Machine
end
